-- ==== Sys2Proof/Word.lean ====
section
/-! DEFINITION. The two bit-vector types of the core: an 8-bit cell and a 32-bit register word. -/

namespace Sys2Proof

/-- A cell of DMEM or TMEM, a byte of BLK, a character code (20_memory.md R40, R41; 00_scope.md R13). -/
abbrev Byte := BitVec 8

/-- A register or command word (10_state.md R22, 30_encoding.md R57). -/
abbrev Word := BitVec 32

end Sys2Proof
end

