-- ==== Sys2Proof/Config.lean ====
section
/-! DEFINITION. What an implementation fixes (00_scope.md R7), the test configuration of 95_test_vectors.md section 0,
and the free value that an unwritten buffer byte reads as. -/

namespace Sys2Proof

/-- The parameters of 00_scope.md R7. The bases are host bus addresses, whose width the spec does not give: here they are
naturals without a bound, and no address wraps around (DESIGN CHOICE, log 18). -/
structure Config where
  /-- DICT, the contents of the I2W-ROM: 2048 words, index 0 to 2047 (10_state.md R31). -/
  dict : List (List Byte)
  /-- DMEM_SIZE. -/
  dmemSize : Nat
  /-- TMEM_SIZE. -/
  tmemSize : Nat
  /-- REG_BASE. -/
  regBase : Nat
  /-- DMEM_BASE. -/
  dmemBase : Nat
  /-- TMEM_BASE. -/
  tmemBase : Nat
deriving DecidableEq, Repr

/-- FREE VALUE. What the n-th read of an unwritten byte returns: "some value that no source fixes"
(70_reset_and_hazards.md R171; log 5). It has no body, so no proof can see a value of it. -/
opaque Config.unwrittenByte : Nat → Byte

/-- The ASCII code of an upper-case hexadecimal digit (93_implementation_defined.md G3). -/
def hexDigit (d : Nat) : Byte := if d < 10 then BitVec.ofNat 8 (0x30 + d) else BitVec.ofNat 8 (0x37 + d)

/-- TD[i] of 95_test_vectors.md section 0: the hexadecimal numeral of i without leading zeros, for i < 4096. -/
def testWord (i : Nat) : List Byte :=
  if i < 16 then [hexDigit i]
  else if i < 256 then [hexDigit (i / 16), hexDigit (i % 16)]
  else [hexDigit (i / 256), hexDigit (i / 16 % 16), hexDigit (i % 16)]

/-- The words TD[i], TD[i+1], ..., n of them. -/
def testWordsFrom : Nat → Nat → List (List Byte)
  | 0, _ => []
  | n + 1, i => testWord i :: testWordsFrom n (i + 1)

/-- DESIGN CHOICE (log 1): the test dictionary TD and the sizes of 95_test_vectors.md section 0; the bases are the
model's choice ("the bus bases do not affect any vector"). -/
def Config.testFixture : Config where
  dict := testWordsFrom 2048 0
  dmemSize := 256
  tmemSize := 256
  regBase := 0
  dmemBase := 0x100
  tmemBase := 0x200

end Sys2Proof
end

