-- ==== Sys2Proof/Machine/State.lean ====
section
/-! DEFINITION. The state of the core, of its host port and of the host (10_state.md), the reasons a step can stop, and
the state after reset. -/

namespace Sys2Proof.Machine

/-- The codes of ERR_CODE (60_exceptions.md R150). Codes 8..15 are "never produced" and cannot be written here (log 15). -/
inductive ErrCode where
  | none
  | lexical
  | unknownWord
  | checksum
  | structural
  | bounds
  | range
  | illegalCmd
deriving DecidableEq, Repr

/-- BLK, the packed block: nine bytes BLKB[0..8] (10_state.md R25). -/
structure Block where
  b0 : Byte
  b1 : Byte
  b2 : Byte
  b3 : Byte
  b4 : Byte
  b5 : Byte
  b6 : Byte
  b7 : Byte
  b8 : Byte
deriving DecidableEq, Repr

/-- IDX0..IDX5, six 11-bit word indices (10_state.md R29). -/
structure Indices where
  i0 : BitVec 11
  i1 : BitVec 11
  i2 : BitVec 11
  i3 : BitVec 11
  i4 : BitVec 11
  i5 : BitVec 11
deriving DecidableEq, Repr

/-- A buffer: the written bytes by offset, offsets strictly rising; an unlisted offset is an unwritten byte and holds no
value (70_reset_and_hazards.md R171; log 5). -/
abbrev Memory := List Host.Cell

/-- The canonical form of a buffer. -/
abbrev Memory.wf (m : Memory) : Prop := m.Pairwise fun x y => x.1 < y.1

/-- The named registers of the window (10_state.md R22). -/
inductive Reg where
  | cmd
  | status
  | errCode
  | errToken
  | errAddr
  | res
  | srcAddr
  | srcLen
  | dstAddr
  | outLen
  | blkW0
  | blkW1
  | blkW2
  | wchr
  | wlen
  | idx0
  | idx1
  | idx2
  | idx3
  | idx4
  | idx5
deriving DecidableEq, Repr

/-- What the HOST does next (00_scope.md R3, 20_memory.md R44, 30_encoding.md R64, 70_reset_and_hazards.md R170).
Addresses are bus addresses, naturals without a bound (DESIGN CHOICE, log 18). -/
inductive HostOp where
  /-- A 32-bit read. -/
  | readWord (addr : Nat)
  /-- A 32-bit write. -/
  | writeWord (addr : Nat) (v : Word)
  /-- An 8-bit read. -/
  | readByte (addr : Nat)
  /-- An 8-bit write. -/
  | writeByte (addr : Nat) (v : Byte)
  /-- A read or write of any other width, `bytes` bytes wide. -/
  | otherAccess (addr bytes : Nat)
  /-- `wait`: read STATUS again and again until BUSY reads 0 (30_encoding.md R64). -/
  | poll
  /-- Assertion of the reset input, one atomic step (70_reset_and_hazards.md R170). -/
  | reset
deriving DecidableEq, Repr

/-- Everything the spec gives the machine, and the HOST's part of the system as plain data. -/
structure State where
  /-- The I2W-ROM and the platform parameters (10_state.md R31, 00_scope.md R7). -/
  cfg : Config
  /-- PENDING (10_state.md R21); STATUS.BUSY is `pending.isSome`. -/
  pending : Option Word
  /-- STATUS.DONE (10_state.md R23). -/
  done : Bool
  /-- STATUS.ERR (10_state.md R23). -/
  err : Bool
  /-- ERR_CODE (10_state.md R24). -/
  errCode : ErrCode
  /-- ERR_TOKEN (10_state.md R24). -/
  errToken : Word
  /-- ERR_ADDR (10_state.md R24). -/
  errAddr : Word
  /-- RES (10_state.md R26). -/
  res : Word
  /-- SRC_ADDR (10_state.md R27). -/
  srcAddr : Word
  /-- SRC_LEN (10_state.md R27). -/
  srcLen : Word
  /-- DST_ADDR (10_state.md R27). -/
  dstAddr : Word
  /-- OUT_LEN (10_state.md R27). -/
  outLen : Word
  /-- BLK (10_state.md R25). -/
  blk : Block
  /-- WCHR (10_state.md R28). -/
  wchr : Word
  /-- WLEN (10_state.md R28). -/
  wlen : Word
  /-- IDX0..IDX5 (10_state.md R29). -/
  idx : Indices
  /-- DMEM (10_state.md R33, 20_memory.md R40). -/
  dmem : Memory
  /-- TMEM (10_state.md R33, 20_memory.md R41). -/
  tmem : Memory
  /-- Mark HOST_PROTOCOL (70_reset_and_hazards.md R174(a)). -/
  hostProtocol : Bool
  /-- Mark UNINIT_READ (70_reset_and_hazards.md R174(b)). -/
  uninitRead : Bool
  /-- Mark REFUSED (70_reset_and_hazards.md R174(c)). -/
  refused : Bool
  /-- MODEL'S OWN (log 8): the HOST's remaining actions, the next one first. -/
  inputs : List HostOp
  /-- MODEL'S OWN (log 7): how many host turns pass before the pending command's CORE step. -/
  delay : Nat
  /-- MODEL'S OWN (log 7): the delays of the commands issued later; 0 where the list has ended. -/
  schedule : List Nat
  /-- MODEL'S OWN (log 6): the host has written CMD and has not yet read STATUS with BUSY = 0, the window of
  70_reset_and_hazards.md R172. -/
  mustPoll : Bool
  /-- MODEL'S OWN (log 10): the values the host's reads returned, oldest first. -/
  readLog : List Word
  /-- MODEL'S OWN (log 5): how many free values have been used. -/
  freeCount : Nat
deriving DecidableEq, Repr

/-- Why the machine stops with a fault. -/
inductive Fault where
  /-- Raised by the bus (Machine/Bus.lean) for a host access that touches two windows on a platform that has let some two
  windows overlap. The platform "must place the windows so that they do not overlap" (20_memory.md R43) and the spec gives
  such an access no effect. DESIGN CHOICE, SAFE: the model stops (log 4). -/
  | overlappingWindows (addr : Nat)
deriving DecidableEq, Repr

/-- Why the machine has no meaning for what it is asked to do. -/
inductive Refusal where
  /-- Raised by `exec` for a command that has no meaning yet. SAFE. No arm raises it. -/
  | notModelled (mnemonic : String)
  /-- Raised by `step` when the mark REFUSED is set: "a model must refuse (not run) a configuration" that 00_scope.md R7
  or R8 rules out (70_reset_and_hazards.md R174(c)). SAFE. -/
  | configRefused
deriving DecidableEq, Repr

/-- BLK with all 72 bits 0 (10_state.md R25). -/
def Block.zero : Block := ⟨0, 0, 0, 0, 0, 0, 0, 0, 0⟩

/-- IDX0..IDX5 all 0 (10_state.md R29). -/
def Indices.zero : Indices := ⟨0, 0, 0, 0, 0, 0⟩

/-- The machine right after power-on reset (70_reset_and_hazards.md R170, R171): every register 0, no command pending,
no buffer byte written, no mark set. The configuration is the test fixture (DESIGN CHOICE, log 1); no host action is
waiting (log 8). `Laws.reset_eq_powerOn` ties it to `State.powerOn`. -/
def State.reset : State where
  cfg := Config.testFixture
  pending := none
  done := false
  err := false
  errCode := .none
  errToken := 0
  errAddr := 0
  res := 0
  srcAddr := 0
  srcLen := 0
  dstAddr := 0
  outLen := 0
  blk := Block.zero
  wchr := 0
  wlen := 0
  idx := Indices.zero
  dmem := []
  tmem := []
  hostProtocol := false
  uninitRead := false
  refused := false
  inputs := []
  delay := 0
  schedule := []
  mustPoll := false
  readLog := []
  freeCount := 0

end Sys2Proof.Machine
end

