-- ==== Sys2Proof/Machine/Flags.lean ====
section
/-! DEFINITION. STATUS, the core's only flag register (10_state.md R23), and the two fixed actions that write it: issue
(30_encoding.md R54) and completion (R55). -/

namespace Sys2Proof.Machine

/-- The number ERR_CODE holds for a code (60_exceptions.md R150). -/
def errCodeNumber : ErrCode → Nat
  | .none => 0
  | .lexical => 1
  | .unknownWord => 2
  | .checksum => 3
  | .structural => 4
  | .bounds => 5
  | .range => 6
  | .illegalCmd => 7

/-- STATUS.BUSY: "`BUSY = (PENDING != none)`" (10_state.md R21, R23). -/
def State.busy (s : State) : Bool := s.pending.isSome

/-- STATUS as the host reads it: BUSY [0], DONE [1], ERR [2], [31:3] read 0 (10_state.md R23). -/
def State.statusWord (s : State) : Word :=
  BitVec.ofNat 32 (s.busy.toNat + 2 * s.done.toNat + 4 * s.err.toNat)

/-- No error: STATUS.ERR and the error record at 0. -/
def State.clearError (s : State) : State :=
  { s with err := false, errCode := .none, errToken := 0, errAddr := 0 }

/-- The issue actions of 30_encoding.md R54. -/
def State.issue (s : State) (w : Word) : State :=
  { s.clearError with pending := some w, done := false }

/-- The completion actions of 30_encoding.md R55. -/
def State.complete (s : State) : State := { s with pending := none, done := true }

end Sys2Proof.Machine
end

