-- ==== Sys2Proof/Machine/Ops.lean ====
section
/-! DEFINITION. The shared operations: the buffers, reading a source range, the error record (the core's only form of
exception), the registers as the host reads and writes them, and clearing all registers. -/

namespace Sys2Proof.Machine

/-! ### Buffers -/

/-- The byte at an offset, `none` where no byte has been written (70_reset_and_hazards.md R171). -/
def Memory.read? : Memory → Nat → Option Byte
  | [], _ => none
  | (b, v) :: m, a => if a = b then some v else Memory.read? m a

/-- `MemWrite(_, a, 1, v)` (00_scope.md R12), keeping the offsets strictly rising. -/
def Memory.write : Memory → Nat → Byte → Memory
  | [], a, v => [(a, v)]
  | (b, w) :: m, a, v =>
    if a < b then (a, v) :: (b, w) :: m
    else if a = b then (a, v) :: m
    else (b, w) :: Memory.write m a v

/-- Bytes written at `a`, `a+1`, ... (the commit loops of 43_encoder.md R107 and 44_decoder.md R121). -/
def Memory.writeBytes : Memory → Nat → List Byte → Memory
  | m, _, [] => m
  | m, a, v :: vs => Memory.writeBytes (m.write a v) (a + 1) vs

/-- The bytes at offsets `a .. a+n-1` (`DRead`, `TRead` of 00_scope.md R12), `none` for an unwritten one. -/
def Memory.range (m : Memory) (a n : Nat) : List (Option Byte) :=
  (List.range n).map fun k => m.read? (a + k)

/-- Every byte at offset `a` and above becomes unwritten (70_reset_and_hazards.md R173). -/
def Memory.eraseFrom (m : Memory) (a : Nat) : Memory := m.filter fun c => decide (c.1 < a)

/-- How many bytes of a range are unwritten. -/
def unwrittenIn (l : List (Option Byte)) : Nat := (l.filter Option.isNone).length

/-- The values a range reads as: a written byte's value, and for each unwritten byte the next free value
(70_reset_and_hazards.md R171; log 5). `c` is the index of the first free value. -/
def fillUnwritten (c : Nat) : List (Option Byte) → List Byte
  | [] => []
  | some v :: l => v :: fillUnwritten c l
  | none :: l => Config.unwrittenByte c :: fillUnwritten (c + 1) l

/-- Reading a range records UNINIT_READ if it holds an unwritten byte, and uses up the free values it takes
(70_reset_and_hazards.md R171, R174(b)). -/
def State.noteReads (s : State) (l : List (Option Byte)) : State :=
  { s with uninitRead := s.uninitRead || decide (0 < unwrittenIn l), freeCount := s.freeCount + unwrittenIn l }

/-- The values a range reads as in state `s`. -/
def State.readBytes (s : State) (l : List (Option Byte)) : List Byte := fillUnwritten s.freeCount l

/-! ### Errors -/

/-- What `raise Err(code, tok, addr)` reports (00_scope.md R15). -/
structure ErrInfo where
  code : ErrCode
  tok : Nat
  addr : Nat
deriving DecidableEq, Repr

/-- TAKING AN ERROR: the error record of 60_exceptions.md R151. Nothing else is saved and control goes nowhere (R154);
there is no return operation (R155). Register writes made before the raise stay made. -/
def State.raiseErr (s : State) (e : ErrInfo) : State :=
  { s with err := true, errCode := e.code, errToken := BitVec.ofNat 32 e.tok, errAddr := BitVec.ofNat 32 e.addr }

/-! ### Registers as the host sees them -/

/-- The offset of a register in the window (10_state.md R22). -/
def Reg.offset : Reg → Nat
  | .cmd => 0x00
  | .status => 0x04
  | .errCode => 0x08
  | .errToken => 0x0C
  | .errAddr => 0x10
  | .res => 0x14
  | .srcAddr => 0x18
  | .srcLen => 0x1C
  | .dstAddr => 0x20
  | .outLen => 0x24
  | .blkW0 => 0x28
  | .blkW1 => 0x2C
  | .blkW2 => 0x30
  | .wchr => 0x34
  | .wlen => 0x38
  | .idx0 => 0x3C
  | .idx1 => 0x40
  | .idx2 => 0x44
  | .idx3 => 0x48
  | .idx4 => 0x4C
  | .idx5 => 0x50

/-- The registers in the order of 10_state.md R22. -/
def Reg.all : List Reg :=
  [.cmd, .status, .errCode, .errToken, .errAddr, .res, .srcAddr, .srcLen, .dstAddr, .outLen] ++
    [.blkW0, .blkW1, .blkW2, .wchr, .wlen, .idx0, .idx1, .idx2, .idx3, .idx4, .idx5]

/-- The register at an offset; `none` for the reserved offsets 0x54..0xFC (10_state.md R22, R30). -/
def Reg.ofOffset (off : Nat) : Option Reg := Reg.all.find? fun r => r.offset == off

/-- Four bytes as a word, the first in bits [31:24] (20_memory.md R38, 10_state.md R25, R28). -/
def word4 (a b c d : Byte) : Word :=
  BitVec.ofNat 32 (2 ^ 24 * a.toNat + 2 ^ 16 * b.toNat + 2 ^ 8 * c.toNat + d.toNat)

/-- Byte `k` of a word, byte 0 in bits [31:24]. -/
def wordByte (w : Word) (k : Nat) : Byte := BitVec.ofNat 8 (w.toNat / 2 ^ (24 - 8 * k))

/-- What a register reads as (10_state.md R22 to R29). No read has a side effect (20_memory.md R46). -/
def State.regValue (s : State) : Reg → Word
  | .cmd => 0
  | .status => s.statusWord
  | .errCode => BitVec.ofNat 32 (errCodeNumber s.errCode)
  | .errToken => s.errToken
  | .errAddr => s.errAddr
  | .res => s.res
  | .srcAddr => s.srcAddr
  | .srcLen => s.srcLen
  | .dstAddr => s.dstAddr
  | .outLen => s.outLen
  | .blkW0 => word4 s.blk.b0 s.blk.b1 s.blk.b2 s.blk.b3
  | .blkW1 => word4 s.blk.b4 s.blk.b5 s.blk.b6 s.blk.b7
  | .blkW2 => word4 s.blk.b8 0 0 0
  | .wchr => s.wchr
  | .wlen => s.wlen
  | .idx0 => s.idx.i0.setWidth 32
  | .idx1 => s.idx.i1.setWidth 32
  | .idx2 => s.idx.i2.setWidth 32
  | .idx3 => s.idx.i3.setWidth 32
  | .idx4 => s.idx.i4.setWidth 32
  | .idx5 => s.idx.i5.setWidth 32

/-- What a window offset reads as: a reserved offset reads 0 (10_state.md R30). -/
def State.readOffset (s : State) (off : Nat) : Word :=
  match Reg.ofOffset off with
  | some r => s.regValue r
  | none => 0

/-- A host write to CMD while BUSY = 0 issues the command (10_state.md R20, 30_encoding.md R54), takes the command's
delay from the schedule (70_reset_and_hazards.md R178; log 7) and opens the window in which the host may only read
STATUS (R172; log 6). -/
def State.hostIssue (s : State) (w : Word) : State :=
  { s.issue w with delay := s.schedule.headD 0, schedule := s.schedule.tail, mustPoll := true }

/-- What a host write to a register does: a read-only register ignores it (10_state.md R30), BLK_W2 stores only its top
byte (R25), IDX0..IDX5 only their low 11 bits (R29). -/
def State.writeReg (s : State) : Reg → Word → State
  | .cmd, v => s.hostIssue v
  | .status, _ => s
  | .errCode, _ => s
  | .errToken, _ => s
  | .errAddr, _ => s
  | .res, _ => s
  | .srcAddr, v => { s with srcAddr := v }
  | .srcLen, v => { s with srcLen := v }
  | .dstAddr, v => { s with dstAddr := v }
  | .outLen, _ => s
  | .blkW0, v =>
    { s with blk := { s.blk with b0 := wordByte v 0, b1 := wordByte v 1, b2 := wordByte v 2, b3 := wordByte v 3 } }
  | .blkW1, v =>
    { s with blk := { s.blk with b4 := wordByte v 0, b5 := wordByte v 1, b6 := wordByte v 2, b7 := wordByte v 3 } }
  | .blkW2, v => { s with blk := { s.blk with b8 := wordByte v 0 } }
  | .wchr, v => { s with wchr := v }
  | .wlen, v => { s with wlen := v }
  | .idx0, v => { s with idx := { s.idx with i0 := v.setWidth 11 } }
  | .idx1, v => { s with idx := { s.idx with i1 := v.setWidth 11 } }
  | .idx2, v => { s with idx := { s.idx with i2 := v.setWidth 11 } }
  | .idx3, v => { s with idx := { s.idx with i3 := v.setWidth 11 } }
  | .idx4, v => { s with idx := { s.idx with i4 := v.setWidth 11 } }
  | .idx5, v => { s with idx := { s.idx with i5 := v.setWidth 11 } }

/-- A host write to a window offset: a reserved offset ignores it (10_state.md R30). -/
def State.writeOffset (s : State) (off : Nat) (v : Word) : State :=
  match Reg.ofOffset off with
  | some r => s.writeReg r v
  | none => s

/-- Every register of 10_state.md R22 other than CMD at its reset value, 0 (45_control.md R141,
70_reset_and_hazards.md R170). -/
def State.clearRegisters (s : State) : State :=
  { s with
    done := false
    err := false
    errCode := .none
    errToken := 0
    errAddr := 0
    res := 0
    srcAddr := 0
    srcLen := 0
    dstAddr := 0
    outLen := 0
    blk := Block.zero
    wchr := 0
    wlen := 0
    idx := Indices.zero }

end Sys2Proof.Machine
end

