-- ==== Sys2Proof/Machine/Bus.lean ====
section
/-! DEFINITION. The host port: the three windows (20_memory.md R43), the access rules (R44, R45, R46) and the protocol
after a CMD write (70_reset_and_hazards.md R172). -/

namespace Sys2Proof.Machine

/-- The register window's size (10_state.md R22). -/
def regWindowSize : Nat := 256

/-- Some byte of the access `addr .. addr+bytes-1` lies in the window of `size` bytes at `base`. The sums do not wrap
around, because the spec gives host bus addresses no width (DESIGN CHOICE, log 18). -/
def touches (base size addr bytes : Nat) : Bool := decide (max addr base < min (addr + bytes) (base + size))

/-- Two windows share no address (20_memory.md R43). -/
def apart (base1 size1 base2 size2 : Nat) : Bool :=
  decide (min (base1 + size1) (base2 + size2) ≤ max base1 base2)

/-- "the platform must place the windows so that they do not overlap" (20_memory.md R43). -/
def windowsApart (c : Config) : Bool :=
  apart c.regBase regWindowSize c.dmemBase c.dmemSize && apart c.regBase regWindowSize c.tmemBase c.tmemSize &&
    apart c.dmemBase c.dmemSize c.tmemBase c.tmemSize

/-- What a host access is an access to. -/
inductive Target where
  /-- A 32-bit register access at a window offset that is a multiple of 4. -/
  | reg (off : Nat)
  /-- An 8-bit access to a DMEM offset. -/
  | dmem (off : Nat)
  /-- An 8-bit access to a TMEM offset. -/
  | tmem (off : Nat)
  /-- An access to the core of a width or alignment that 20_memory.md R44 does not allow. -/
  | misfit
  /-- In none of the windows (20_memory.md R45). -/
  | outside
  /-- In two windows, on a platform that has let some two windows overlap (DESIGN CHOICE, log 4). -/
  | overlap
deriving DecidableEq, Repr

/-- The target of an access of `bytes` bytes at bus address `addr` (20_memory.md R43, R44, R45). An access that runs from
one window into another has no allowed width and is a misfit where all three windows are apart (DEDUCED, log 9). Where
some two windows overlap, they or others, the platform breaks R43 and the spec says nothing of such an access: the model
faults (DESIGN CHOICE, log 4). -/
def busTarget (c : Config) (addr bytes : Nat) : Target :=
  match touches c.regBase regWindowSize addr bytes, touches c.dmemBase c.dmemSize addr bytes,
    touches c.tmemBase c.tmemSize addr bytes with
  | false, false, false => .outside
  | true, false, false =>
    if bytes = 4 ∧ c.regBase ≤ addr ∧ (addr - c.regBase) % 4 = 0 then .reg (addr - c.regBase) else .misfit
  | false, true, false => if bytes = 1 then .dmem (addr - c.dmemBase) else .misfit
  | false, false, true => if bytes = 1 then .tmem (addr - c.tmemBase) else .misfit
  | _, _, _ => if windowsApart c then .misfit else .overlap

/-- A protocol violation: the mark, and no effect (70_reset_and_hazards.md R172, R174(a); log 6). -/
def State.violation (s : State) : State := { s with hostProtocol := true }

/-- The host may only read STATUS: BUSY = 1, or no STATUS read since the last CMD write has returned BUSY = 0
(70_reset_and_hazards.md R172; log 6). -/
def State.locked (s : State) : Bool := s.busy || s.mustPoll

/-- The host receives a value. -/
def State.logRead (s : State) (v : Word) : State := { s with readLog := s.readLog ++ [v] }

/-- A host byte read of a buffer cell: no side effect (20_memory.md R46), and for an unwritten byte the mark UNINIT_READ
and a free value (70_reset_and_hazards.md R171). -/
def State.hostReadByte (s : State) (cell : Option Byte) : State :=
  (s.noteReads [cell]).logRead (((s.readBytes [cell]).headD 0).setWidth 32)

/-- A host read of STATUS, always allowed; one that returns BUSY = 0 closes the window of 70_reset_and_hazards.md
R172. -/
def State.readStatus (s : State) : State :=
  State.logRead { s with mustPoll := s.mustPoll && s.busy } s.statusWord

/-- A host register read. -/
def hostReadReg (off : Nat) (s : State) : Host.Outcome State Fault Refusal :=
  if off = Reg.offset .status then .next s.readStatus
  else if s.locked then .next s.violation
  else .next (s.logRead (s.readOffset off))

/-- A host register write. -/
def hostWriteReg (off : Nat) (v : Word) (s : State) : Host.Outcome State Fault Refusal :=
  if s.locked then .next s.violation else .next (s.writeOffset off v)

/-- A host byte read of DMEM or TMEM. -/
def hostReadBuffer (cell : Option Byte) (s : State) : Host.Outcome State Fault Refusal :=
  if s.locked then .next s.violation else .next (s.hostReadByte cell)

/-- A 32-bit read on the bus. -/
def busReadWord (addr : Nat) (s : State) : Host.Outcome State Fault Refusal :=
  match busTarget s.cfg addr 4 with
  | .reg off => hostReadReg off s
  | .dmem _ => .next s.violation
  | .tmem _ => .next s.violation
  | .misfit => .next s.violation
  | .outside => .next s
  | .overlap => .fault (.overlappingWindows addr)

/-- A 32-bit write on the bus. -/
def busWriteWord (addr : Nat) (v : Word) (s : State) : Host.Outcome State Fault Refusal :=
  match busTarget s.cfg addr 4 with
  | .reg off => hostWriteReg off v s
  | .dmem _ => .next s.violation
  | .tmem _ => .next s.violation
  | .misfit => .next s.violation
  | .outside => .next s
  | .overlap => .fault (.overlappingWindows addr)

/-- An 8-bit read on the bus. -/
def busReadByte (addr : Nat) (s : State) : Host.Outcome State Fault Refusal :=
  match busTarget s.cfg addr 1 with
  | .reg _ => .next s.violation
  | .dmem off => hostReadBuffer (s.dmem.read? off) s
  | .tmem off => hostReadBuffer (s.tmem.read? off) s
  | .misfit => .next s.violation
  | .outside => .next s
  | .overlap => .fault (.overlappingWindows addr)

/-- An 8-bit write on the bus: it changes only the addressed byte (20_memory.md R46). -/
def busWriteByte (addr : Nat) (v : Byte) (s : State) : Host.Outcome State Fault Refusal :=
  match busTarget s.cfg addr 1 with
  | .reg _ => .next s.violation
  | .dmem off => if s.locked then .next s.violation else .next { s with dmem := s.dmem.write off v }
  | .tmem off => if s.locked then .next s.violation else .next { s with tmem := s.tmem.write off v }
  | .misfit => .next s.violation
  | .outside => .next s
  | .overlap => .fault (.overlappingWindows addr)

/-- An access of any other width: never allowed in a window (20_memory.md R44). -/
def busOtherAccess (addr bytes : Nat) (s : State) : Host.Outcome State Fault Refusal :=
  match busTarget s.cfg addr bytes with
  | .reg _ => .next s.violation
  | .dmem _ => .next s.violation
  | .tmem _ => .next s.violation
  | .misfit => .next s.violation
  | .outside => .next s
  | .overlap => .fault (.overlappingWindows addr)

/-- The bus address of STATUS. -/
def statusAddr (c : Config) : Nat := c.regBase + Reg.offset .status

end Sys2Proof.Machine
end

