-- ==== Sys2Proof/Machine/Operands.lean ====
section
/-! DEFINITION. The implicit operands of the commands (30_encoding.md R58): BLK as a byte list, the six indices as
numbers, the word in WCHR and WLEN, and the source ranges of ENC and DEC. -/

namespace Sys2Proof.Machine

/-- BLKB[0..8] (10_state.md R25). -/
def Block.bytes (b : Block) : List Byte := [b.b0, b.b1, b.b2, b.b3, b.b4, b.b5, b.b6, b.b7, b.b8]

/-- The register that holds the bytes of a nine-byte list. -/
def Block.ofBytes (p : List Byte) : Block where
  b0 := p.getD 0 0
  b1 := p.getD 1 0
  b2 := p.getD 2 0
  b3 := p.getD 3 0
  b4 := p.getD 4 0
  b5 := p.getD 5 0
  b6 := p.getD 6 0
  b7 := p.getD 7 0
  b8 := p.getD 8 0

/-- The six indices as numbers (10_state.md R29). -/
def Indices.values (x : Indices) : List Nat :=
  [x.i0.toNat, x.i1.toNat, x.i2.toNat, x.i3.toNat, x.i4.toNat, x.i5.toNat]

/-- The register file that holds six indices. -/
def Indices.ofValues (l : List Nat) : Indices where
  i0 := BitVec.ofNat 11 (l.getD 0 0)
  i1 := BitVec.ofNat 11 (l.getD 1 0)
  i2 := BitVec.ofNat 11 (l.getD 2 0)
  i3 := BitVec.ofNat 11 (l.getD 3 0)
  i4 := BitVec.ofNat 11 (l.getD 4 0)
  i5 := BitVec.ofNat 11 (l.getD 5 0)

/-- The four character codes of WCHR, first character in bits [31:24] (10_state.md R28). -/
def wordChars (w : Word) : List Byte := [wordByte w 0, wordByte w 1, wordByte w 2, wordByte w 3]

/-- WCHR for a word of up to four codes, unused low bytes 0 (42_dictionary.md R94). -/
def packChars (t : List Byte) : Word := word4 (t.getD 0 0) (t.getD 1 0) (t.getD 2 0) (t.getD 3 0)

/-- The token W2I looks up: the first WLEN codes of WCHR (42_dictionary.md R95). -/
def State.wordOperand (s : State) : List Byte := (wordChars s.wchr).take s.wlen.toNat

/-- ENC's source: DMEM[SRC_ADDR .. SRC_ADDR+SRC_LEN-1] (43_encoder.md R107). -/
def State.encSource (s : State) : List (Option Byte) := s.dmem.range s.srcAddr.toNat s.srcLen.toNat

/-- DEC's source: TMEM[SRC_ADDR .. SRC_ADDR+SRC_LEN-1] (44_decoder.md R121). -/
def State.decSource (s : State) : List (Option Byte) := s.tmem.range s.srcAddr.toNat s.srcLen.toNat

end Sys2Proof.Machine
end

