-- ==== Sys2Proof/Machine/BitView.lean ====
section
/-! DEFINITION. The bit-extraction unit (40_bitview.md) and EXT. -/

namespace Sys2Proof.Machine

/-- `sbit(buf, b)`: stream bit `b`, most significant bit of byte 0 first (20_memory.md R35). A stream bit past the end
reads 0 here; no use is out of range (40_bitview.md R72; log 16). -/
def sbit (buf : List Byte) (b : Nat) : Nat := (buf.getD (b / 8) 0).toNat / 2 ^ (7 - b % 8) % 2

/-- `Extract(buf, start, len)` (40_bitview.md R70): the last step of the loop is `acc*2 + sbit(buf, start + len - 1)`. -/
def extract (buf : List Byte) (start : Nat) : Nat → Nat
  | 0 => 0
  | len + 1 => 2 * extract buf start len + sbit buf (start + len)

/-- `V(buf)`: the byte list as one big-endian integer (20_memory.md R37). -/
def bigEndian (buf : List Byte) : Nat := buf.foldl (fun acc b => 2 ^ 8 * acc + b.toNat) 0

/-- `Field(P, j)`, the j-th 11-bit index field (40_bitview.md R76). -/
def indexField (p : List Byte) (j : Nat) : Nat := extract p (11 * j) 11

/-- `Pair(P, g)`, the g-th 2-bit group (40_bitview.md R76). -/
def pairField (p : List Byte) (g : Nat) : Nat := extract p (2 * g) 2

/-- `ChkField(P)`, the embedded checksum (40_bitview.md R76). -/
def checksumField (p : List Byte) : Nat := extract p 64 2

/-- The body of EXT (40_bitview.md R73). -/
def extBody (start len : Nat) (s : State) : State :=
  if start + len > 72 then s.raiseErr ⟨.bounds, 0, 0⟩
  else { s with res := BitVec.ofNat 32 (extract s.blk.bytes start len) }

/-- EXT (40_bitview.md R73, R74). -/
def execExt (start len : Nat) (s : State) : Host.Outcome State Fault Refusal :=
  .next (extBody start len s).complete

end Sys2Proof.Machine
end

