-- ==== Sys2Proof/Machine/Control.lean ====
section
/-! DEFINITION. NOP, CLR and illegal command words (45_control.md). -/

namespace Sys2Proof.Machine

/-- NOP (45_control.md R140): nothing but completion. -/
def execNop (s : State) : Host.Outcome State Fault Refusal := .next s.complete

/-- CLR (45_control.md R141): every register other than CMD at its reset value, then completion; buffers unchanged. -/
def execClr (s : State) : Host.Outcome State Fault Refusal := .next s.clearRegisters.complete

/-- An illegal command word (45_control.md R142). -/
def execIllegal (s : State) : Host.Outcome State Fault Refusal :=
  .next (s.raiseErr ⟨.illegalCmd, 0, 0⟩).complete

end Sys2Proof.Machine
end

