-- ==== Sys2Proof/Syntax.lean ====
section
/-! DEFINITION. The commands of the core: one constructor for each row of spec/opcode_table.json (30_encoding.md R59).
Operand fields are the unsigned integers of R58; their ranges are checked in WellFormed.lean. -/

namespace Sys2Proof

/-- The ten commands (30_encoding.md R59). -/
inductive Instr where
  /-- NOP, 45_control.md R140. -/
  | nop
  /-- EXT with START and LEN, 40_bitview.md R73. -/
  | ext (start len : Nat)
  /-- PAR, 41_parity.md R83. -/
  | par
  /-- I2W with INDEX, 42_dictionary.md R94. -/
  | i2w (index : Nat)
  /-- W2I, 42_dictionary.md R95. -/
  | w2i
  /-- ENCB, 43_encoder.md R102. -/
  | encb
  /-- DECB, 44_decoder.md R117. -/
  | decb
  /-- ENC, 43_encoder.md R107. -/
  | enc
  /-- DEC, 44_decoder.md R121. -/
  | dec
  /-- CLR, 45_control.md R141. -/
  | clr
deriving DecidableEq, Repr

end Sys2Proof
end

