-- ==== Sys2Proof/WellFormed.lean ====
section
/-! DEFINITION. Which commands have an encoding: every operand inside its field (30_encoding.md R57, R58, R63). -/

namespace Sys2Proof

/-- An operand outside its range has no encoding (30_encoding.md R63: "never a truncation"). -/
def Instr.wellFormed : Instr → Bool
  | .nop => true
  | .ext start len => decide (start ≤ 127) && decide (len ≤ 31)
  | .par => true
  | .i2w index => decide (index ≤ 2047)
  | .w2i => true
  | .encb => true
  | .decb => true
  | .enc => true
  | .dec => true
  | .clr => true

end Sys2Proof
end

