-- ==== Sys2Proof/Decode.lean ====
section
/-! DEFINITION. Decoding, total on all 2^32 command words (30_encoding.md R62), and the encoder from the same formats
(R57, R65). -/

namespace Sys2Proof

/-- Why a word is ILLEGAL (30_encoding.md R60). -/
inductive DecodeError where
  /-- OP is 0xA..0xF. -/
  | reservedOpcode
  /-- A bit that the word's format marks reserved is 1. -/
  | reservedBits
deriving DecidableEq, Repr

/-- `v[hi:lo]` of 00_scope.md R9. -/
def bitField (v hi lo : Nat) : Nat := v / 2 ^ lo % 2 ^ (hi - lo + 1)

/-- Format Z: the 28 bits below OP are reserved (30_encoding.md R57). -/
def decodeZ (v : Nat) (i : Instr) : Except DecodeError Instr :=
  if bitField v 27 0 = 0 then .ok i else .error .reservedBits

/-- Format X: LEN in [12:8], START in [6:0], bits [27:13] and [7] reserved (30_encoding.md R57). -/
def decodeX (v : Nat) : Except DecodeError Instr :=
  if bitField v 27 13 = 0 ∧ bitField v 7 7 = 0 then .ok (.ext (bitField v 6 0) (bitField v 12 8))
  else .error .reservedBits

/-- Format I: INDEX in [10:0], bits [27:11] reserved (30_encoding.md R57). -/
def decodeI (v : Nat) : Except DecodeError Instr :=
  if bitField v 27 11 = 0 then .ok (.i2w (bitField v 10 0)) else .error .reservedBits

/-- 30_encoding.md R62. -/
def decode (w : Word) : Except DecodeError Instr :=
  match bitField w.toNat 31 28 with
  | 0x0 => decodeZ w.toNat .nop
  | 0x1 => decodeX w.toNat
  | 0x2 => decodeZ w.toNat .par
  | 0x3 => decodeI w.toNat
  | 0x4 => decodeZ w.toNat .w2i
  | 0x5 => decodeZ w.toNat .encb
  | 0x6 => decodeZ w.toNat .decb
  | 0x7 => decodeZ w.toNat .enc
  | 0x8 => decodeZ w.toNat .dec
  | 0x9 => decodeZ w.toNat .clr
  | _ => .error .reservedOpcode

/-- OP of each command (30_encoding.md R59). -/
def opcode : Instr → Nat
  | .nop => 0x0
  | .ext _ _ => 0x1
  | .par => 0x2
  | .i2w _ => 0x3
  | .w2i => 0x4
  | .encb => 0x5
  | .decb => 0x6
  | .enc => 0x7
  | .dec => 0x8
  | .clr => 0x9

/-- The operand bits [27:0] of a command (30_encoding.md R57). -/
def operandBits : Instr → Nat
  | .nop => 0
  | .ext start len => 0x100 * len + start
  | .par => 0
  | .i2w index => index
  | .w2i => 0
  | .encb => 0
  | .decb => 0
  | .enc => 0
  | .dec => 0
  | .clr => 0

/-- The command word of a well-formed command (30_encoding.md R57, R63, R65). -/
def encode (i : Instr) : Word := BitVec.ofNat 32 (2 ^ 28 * opcode i + operandBits i)

/-- The command word whose low `nbits` bits are `w`; every command is one 32-bit word (30_encoding.md R61). -/
def tableWord (nbits w : Nat) : Word := BitVec.ofNat 32 (w % 2 ^ nbits)

/-- What the decoder reads from a word numbered as spec/opcode_table.json numbers it. -/
def decodeTableWord (nbits w : Nat) : Option Instr := (decode (tableWord nbits w)).toOption

end Sys2Proof
end

