-- ==== Sys2Proof/Machine/Dictionary.lean ====
section
/-! DEFINITION. Characters, the two dictionary lookups (42_dictionary.md), the check of a configuration
(00_scope.md R7, R8), I2W and W2I. -/

namespace Sys2Proof.Machine

/-- `fold(c)`: a..z to A..Z, every other code unchanged (00_scope.md R13). -/
def fold (c : Byte) : Byte :=
  if 0x61 ≤ c.toNat ∧ c.toNat ≤ 0x7A then BitVec.ofNat 8 (c.toNat - 0x20) else c

/-- `fold` of a word: of every character (00_scope.md R13). -/
def foldWord (t : List Byte) : List Byte := t.map fold

/-- Membership in SEP (00_scope.md R14). -/
def isSep (c : Byte) : Bool := c ∈ [0x09#8, 0x0A#8, 0x0B#8, 0x0C#8, 0x0D#8, 0x20#8]

/-- A code a dictionary word may hold (00_scope.md R8(c)). -/
def isPrintable (c : Byte) : Bool := decide (0x21 ≤ c.toNat) && decide (c.toNat ≤ 0x7E)

/-- `LexOK(n)` (42_dictionary.md R91). -/
def lexOK (n : Nat) : Bool := decide (1 ≤ n) && decide (n ≤ 4)

/-- One entry meets 00_scope.md R8(b) and (c). -/
def entryOK (t : List Byte) : Bool := lexOK t.length && t.all isPrintable

/-- 00_scope.md R8: 2048 entries, each of 1 to 4 printable codes, no two equal after `fold`. -/
def dictOK (d : List (List Byte)) : Bool :=
  decide (d.length = 2048) && d.all entryOK && decide (d.map foldWord).Nodup

/-- A buffer size 00_scope.md R7 allows. -/
def sizeOK (n : Nat) : Bool := decide (0 < n) && decide (n ≤ 2 ^ 31)

/-- A configuration that is not refused (70_reset_and_hazards.md R174(c)). -/
def configOK (c : Config) : Bool := dictOK c.dict && sizeOK c.dmemSize && sizeOK c.tmemSize

/-- `WordOf(i)` (42_dictionary.md R90), read from the I2W-ROM; the empty list past the last entry, which no 11-bit index
of a configuration that is not refused reaches. -/
def wordOf (d : List (List Byte)) (i : Nat) : List Byte := d.getD i []

/-- The CAM's match of one entry (42_dictionary.md R92). -/
def matchesEntry (t e : List Byte) : Bool := e.length == t.length && foldWord e == foldWord t

/-- `IndexOf(t)`, `none` for MISS (42_dictionary.md R92). -/
def indexOf (d : List (List Byte)) (t : List Byte) : Option Nat := d.findIdx? (matchesEntry t)

/-- The body of I2W (42_dictionary.md R94). -/
def i2wBody (index : Nat) (s : State) : State :=
  { s with
    wchr := packChars (wordOf s.cfg.dict index)
    wlen := BitVec.ofNat 32 (wordOf s.cfg.dict index).length }

/-- I2W (42_dictionary.md R94). -/
def execI2w (index : Nat) (s : State) : Host.Outcome State Fault Refusal := .next (i2wBody index s).complete

/-- The body of W2I: the length first, then the lookup (42_dictionary.md R95). -/
def w2iBody (s : State) : State :=
  if lexOK s.wlen.toNat then
    match indexOf s.cfg.dict s.wordOperand with
    | some i => { s with res := BitVec.ofNat 32 i }
    | none => s.raiseErr ⟨.unknownWord, 0, 0⟩
  else s.raiseErr ⟨.lexical, 0, 0⟩

/-- W2I (42_dictionary.md R95). -/
def execW2i (s : State) : Host.Outcome State Fault Refusal := .next (w2iBody s).complete

end Sys2Proof.Machine
end

