-- ==== Sys2Proof/Machine/Parity.lean ====
section
/-! DEFINITION. The 2-bit checksum accumulator (41_parity.md) and PAR. -/

namespace Sys2Proof.Machine

/-- The accumulator after the first `n` groups: each group is added modulo 4 (41_parity.md R80). -/
def checksumOfGroups (p : List Byte) : Nat → Nat
  | 0 => 0
  | g + 1 => (checksumOfGroups p g + pairField p g) % 4

/-- `Checksum(P)`: the sum modulo 4 of the thirty-two groups of the 64 data bits (41_parity.md R80). -/
def checksum (p : List Byte) : Nat := checksumOfGroups p 32

/-- The body of PAR (41_parity.md R83). -/
def parBody (s : State) : State := { s with res := BitVec.ofNat 32 (checksum s.blk.bytes) }

/-- PAR (41_parity.md R83). -/
def execPar (s : State) : Host.Outcome State Fault Refusal := .next (parBody s).complete

end Sys2Proof.Machine
end

