-- ==== Sys2Proof/Machine/Decoder.lean ====
section
/-! DEFINITION. The decoder datapath (44_decoder.md), DECB and DEC. -/

namespace Sys2Proof.Machine

/-- Stream bit `b` set in a byte list (44_decoder.md R115). -/
def orBit (p : List Byte) (b : Nat) : List Byte :=
  p.set (b / 8) (p.getD (b / 8) 0 ||| BitVec.ofNat 8 (2 ^ (7 - b % 8)))

/-- The inner loop of `Concat`: the eleven bits of index `v` OR-ed in at field `j` (44_decoder.md R115). -/
def placeField (p : List Byte) (j v : Nat) : List Byte :=
  (List.range 11).foldl (fun q k => if bitField v (10 - k) (10 - k) = 1 then orBit q (11 * j + k) else q) p

/-- `Concat(idx)` (44_decoder.md R115). -/
def concat (idx : List Nat) : List Byte :=
  (List.range 6).foldl (fun p j => placeField p j (idx.getD j 0)) (List.replicate 9 0)

/-- `Verifies(P)` (44_decoder.md R116). -/
def verifies (p : List Byte) : Bool := checksum p == checksumField p

/-- BLK and RES as DECB writes them, before its check (44_decoder.md R117). -/
def decbWrite (p : List Byte) (s : State) : State :=
  { s with blk := Block.ofBytes p, res := BitVec.ofNat 32 (checksum p) }

/-- The body of DECB (44_decoder.md R117). -/
def decbBody (s : State) : State :=
  if verifies (concat s.idx.values) then decbWrite (concat s.idx.values) s
  else (decbWrite (concat s.idx.values) s).raiseErr ⟨.checksum, 5, 0⟩

/-- DECB (44_decoder.md R117). -/
def execDecb (s : State) : Host.Outcome State Fault Refusal := .next (decbBody s).complete

/-- A token: its characters and the TMEM offset of its first character (44_decoder.md R118). -/
structure Token where
  chars : List Byte
  addr : Nat
deriving DecidableEq, Repr

/-- The tokens of a text that starts at offset `a`, at least one: a separator ends a token, every other code joins the
token it stands in (44_decoder.md R118). -/
def splitTokens : List Byte → Nat → List Token
  | [], a => [⟨[], a⟩]
  | c :: t, a =>
    if isSep c then ⟨[], a⟩ :: splitTokens t (a + 1)
    else
      match splitTokens t (a + 1) with
      | [] => [⟨[c], a⟩]
      | tok :: toks => ⟨c :: tok.chars, a⟩ :: toks

/-- `Tokenize(t, s)` (44_decoder.md R118): the empty text has no tokens. -/
def tokenize (t : List Byte) (s : Nat) : List Token := if t.isEmpty then [] else splitTokens t s

/-- Length check and lookup of the tokens of a group, one after the other; `n` is the first one's token index
(44_decoder.md R120). -/
def lookupTokens (d : List (List Byte)) : Nat → List Token → Except ErrInfo (List Nat)
  | _, [] => .ok []
  | n, tok :: toks =>
    if lexOK tok.chars.length then
      match indexOf d tok.chars with
      | none => .error ⟨.unknownWord, n, tok.addr⟩
      | some i =>
        match lookupTokens d (n + 1) toks with
        | .error e => .error e
        | .ok l => .ok (i :: l)
    else .error ⟨.lexical, n, tok.addr⟩

/-- One group of six tokens, the first with token index `n`: its eight data bytes, or the first error
(44_decoder.md R120). -/
def decodeGroup (d : List (List Byte)) (n : Nat) (toks : List Token) : Except ErrInfo (List Byte) :=
  match lookupTokens d n toks with
  | .error e => .error e
  | .ok idx =>
    if verifies (concat idx) then .ok ((concat idx).take 8)
    else .error ⟨.checksum, n + 5, (toks.getD 5 ⟨[], 0⟩).addr⟩

/-- `DecodeGroups(toks)` (44_decoder.md R120): groups left to right, the first error found is the one reported. -/
def decodeGroups (d : List (List Byte)) : Nat → List Token → Except ErrInfo (List Byte)
  | n, t0 :: t1 :: t2 :: t3 :: t4 :: t5 :: toks =>
    match decodeGroup d n [t0, t1, t2, t3, t4, t5] with
    | .error e => .error e
    | .ok out =>
      match decodeGroups d (n + 6) toks with
      | .error e => .error e
      | .ok rest => .ok (out ++ rest)
  | _, _ => .ok []

/-- DEC after its source is read: STRUCTURAL, RANGE of the destination, the groups, the commit (44_decoder.md R121). -/
def decCommit (toks : List Token) (s : State) : State :=
  if toks.length % 6 ≠ 0 then
    s.raiseErr ⟨.structural, 6 * (toks.length / 6), (toks.getD (6 * (toks.length / 6)) ⟨[], 0⟩).addr⟩
  else if s.dstAddr.toNat + 8 * (toks.length / 6) > s.cfg.dmemSize then s.raiseErr ⟨.range, 0, 0⟩
  else
    match decodeGroups s.cfg.dict 0 toks with
    | .error e => s.raiseErr e
    | .ok out =>
      { s with
        dmem := s.dmem.writeBytes s.dstAddr.toNat out
        outLen := BitVec.ofNat 32 out.length }

/-- The body of DEC (44_decoder.md R121). -/
def decBody (s : State) : State :=
  if s.srcAddr.toNat + s.srcLen.toNat > s.cfg.tmemSize then
    State.raiseErr { s with outLen := 0 } ⟨.range, 0, 0⟩
  else
    decCommit (tokenize (s.readBytes s.decSource) s.srcAddr.toNat)
      (State.noteReads { s with outLen := 0 } s.decSource)

/-- DEC (44_decoder.md R121, R123). -/
def execDec (s : State) : Host.Outcome State Fault Refusal := .next (decBody s).complete

end Sys2Proof.Machine
end

