-- ==== Sys2Proof/Machine/Encoder.lean ====
section
/-! DEFINITION. The encoder datapath (43_encoder.md), ENCB and ENC. -/

namespace Sys2Proof.Machine

/-- The checksum byte of a checksum: `c * 64` (41_parity.md R84). -/
def checksumByte (c : Nat) : Byte := BitVec.ofNat 8 (64 * c)

/-- `PackBlock(d)` (43_encoder.md R100). -/
def packBlock (d : List Byte) : List Byte := d ++ [checksumByte (checksum d)]

/-- `SliceBlock(P)` (43_encoder.md R101). -/
def sliceBlock (p : List Byte) : List Nat :=
  [indexField p 0, indexField p 1, indexField p 2, indexField p 3, indexField p 4, indexField p 5]

/-- BLK after ENCB's checksum append: byte 8 overwritten (43_encoder.md R102). -/
def appendChecksum (b : Block) : Block := { b with b8 := checksumByte (checksum b.bytes) }

/-- The body of ENCB (43_encoder.md R102). -/
def encbBody (s : State) : State :=
  { s with
    blk := appendChecksum s.blk
    idx := Indices.ofValues (sliceBlock (appendChecksum s.blk).bytes)
    res := BitVec.ofNat 32 (checksum s.blk.bytes) }

/-- ENCB (43_encoder.md R102). -/
def execEncb (s : State) : Host.Outcome State Fault Refusal := .next (encbBody s).complete

/-- `Pad(b)` (43_encoder.md R103). -/
def pad (b : List Byte) : List Byte := b ++ List.replicate ((8 - b.length % 8) % 8) 0

/-- `NB(b)`, the number of blocks (43_encoder.md R103). -/
def numBlocks (b : List Byte) : Nat := (pad b).length / 8

/-- Block `k`: `Pad(b)[8k .. 8k+7]` (43_encoder.md R104). -/
def blockAt (b : List Byte) (k : Nat) : List Byte := ((pad b).drop (8 * k)).take 8

/-- The six words of a block (43_encoder.md R105). -/
def blockWords (d : List (List Byte)) (b : List Byte) : List (List Byte) :=
  (sliceBlock (packBlock b)).map (wordOf d)

/-- The words of a buffer, block by block (43_encoder.md R105). -/
def encodeWords (d : List (List Byte)) (b : List Byte) : List (List Byte) :=
  (List.range (numBlocks b)).flatMap fun k => blockWords d (blockAt b k)

/-- Words joined with a single 0x20 (43_encoder.md R105). -/
def joinWords : List (List Byte) → List Byte
  | [] => []
  | w :: ws => w ++ ws.flatMap fun v => 0x20#8 :: v

/-- `EncodeText(b)` (43_encoder.md R105). -/
def encodeText (d : List (List Byte)) (b : List Byte) : List Byte := joinWords (encodeWords d b)

/-- ENC's commit of a text: TMEM and OUT_LEN, or RANGE where the text would leave TMEM (43_encoder.md R107). -/
def encCommit (text : List Byte) (s : State) : State :=
  if s.dstAddr.toNat + text.length > s.cfg.tmemSize then s.raiseErr ⟨.range, 0, 0⟩
  else
    { s with
      tmem := s.tmem.writeBytes s.dstAddr.toNat text
      outLen := BitVec.ofNat 32 text.length }

/-- The body of ENC (43_encoder.md R107): OUT_LEN cleared, the source range checked without wrap-around, the text built,
the destination checked, the text committed. -/
def encBody (s : State) : State :=
  if s.srcAddr.toNat + s.srcLen.toNat > s.cfg.dmemSize then
    State.raiseErr { s with outLen := 0 } ⟨.range, 0, 0⟩
  else
    encCommit (encodeText s.cfg.dict (s.readBytes s.encSource))
      (State.noteReads { s with outLen := 0 } s.encSource)

/-- ENC (43_encoder.md R107, R108). -/
def execEnc (s : State) : Host.Outcome State Fault Refusal := .next (encBody s).complete

end Sys2Proof.Machine
end

