-- ==== Sys2Proof/Machine/Dispatch.lean ====
section
/-! DEFINITION. One arm per command; completion (30_encoding.md R55) is part of every meaning. -/

namespace Sys2Proof.Machine

def exec (i : Instr) (s : State) : Host.Outcome State Fault Refusal :=
  match i with
  | .nop => Sys2Proof.Machine.execNop s
  | .ext start len => Sys2Proof.Machine.execExt start len s
  | .par => Sys2Proof.Machine.execPar s
  | .i2w index => Sys2Proof.Machine.execI2w index s
  | .w2i => Sys2Proof.Machine.execW2i s
  | .encb => Sys2Proof.Machine.execEncb s
  | .decb => Sys2Proof.Machine.execDecb s
  | .enc => Sys2Proof.Machine.execEnc s
  | .dec => Sys2Proof.Machine.execDec s
  | .clr => Sys2Proof.Machine.execClr s

end Sys2Proof.Machine
end

