-- ==== Sys2Proof/Machine/Reset.lean ====
section
/-! DEFINITION. Power-on and the reset input (70_reset_and_hazards.md R170, R171, R173). -/

namespace Sys2Proof.Machine

/-- The machine after power-on with configuration `c`: registers 0, nothing pending, every buffer byte unwritten, and
REFUSED set exactly when the configuration is refused (70_reset_and_hazards.md R170, R171, R174(c)). -/
def State.powerOn (c : Config) : State :=
  { State.reset with cfg := c, refused := !configOK c }

/-- What a reset does to the buffers when it abandons a pending command: ENC leaves every TMEM byte at DST_ADDR and above
unwritten, DEC every such DMEM byte, any other word neither (70_reset_and_hazards.md R173). -/
def State.abandonPending (s : State) : State :=
  match s.pending.map decode with
  | some (.ok .enc) => { s with tmem := s.tmem.eraseFrom s.dstAddr.toNat }
  | some (.ok .dec) => { s with dmem := s.dmem.eraseFrom s.dstAddr.toNat }
  | _ => s

/-- Assertion of the reset input as one atomic step (70_reset_and_hazards.md R170, R173): registers 0, nothing pending;
the ROM, the marks (R174) and every buffer byte R173 does not name stay. -/
def State.resetInput (s : State) : State :=
  { s.abandonPending.clearRegisters with pending := none, delay := 0, mustPoll := false }

end Sys2Proof.Machine
end

