-- ==== Sys2Proof/Machine/Turn.lean ====
section
/-! DEFINITION. One turn of each agent: the HOST's next action, and the CORE step (30_encoding.md R56). -/

namespace Sys2Proof.Machine

/-- The HOST's poll of STATUS (30_encoding.md R64 `wait`, 70_reset_and_hazards.md R172): one STATUS read; the host polls
again while it has read BUSY = 1. `rest` is what the host does after the wait. -/
def hostPoll (rest : List HostOp) (s : State) : Host.Outcome State Fault Refusal :=
  busReadWord (statusAddr s.cfg) { s with inputs := if s.busy then .poll :: rest else rest }

/-- The HOST takes its next action `op`; `rest` is what it does after it. -/
def hostTurn (op : HostOp) (rest : List HostOp) (s : State) : Host.Outcome State Fault Refusal :=
  match op with
  | .readWord addr => busReadWord addr { s with inputs := rest }
  | .writeWord addr v => busWriteWord addr v { s with inputs := rest }
  | .readByte addr => busReadByte addr { s with inputs := rest }
  | .writeByte addr v => busWriteByte addr v { s with inputs := rest }
  | .otherAccess addr bytes => busOtherAccess addr bytes { s with inputs := rest }
  | .poll => hostPoll rest s
  | .reset => .next (State.resetInput { s with inputs := rest })

/-- The CORE step on the pending word `w`: "decodes `w` by rule R62, carries out the body of the decoded command (or
raises ILLEGAL_CMD), then completes" (30_encoding.md R56). -/
def coreStep (w : Word) (s : State) : Host.Outcome State Fault Refusal :=
  match decode w with
  | .ok i => exec i s
  | .error _ => execIllegal s

/-- A turn while the word `w` is pending: a host turn while the schedule still delays the CORE step and the host has an
action left, else the CORE step (70_reset_and_hazards.md R178; log 7). -/
def busyTurn (w : Word) (s : State) : Host.Outcome State Fault Refusal :=
  match s.delay, s.inputs with
  | d + 1, op :: rest => hostTurn op rest { s with delay := d }
  | 0, _ => coreStep w s
  | _, [] => coreStep w s

/-- A turn while no command is pending: the host's next action, or nothing (log 8). -/
def idleTurn (s : State) : Host.Outcome State Fault Refusal :=
  match s.inputs with
  | op :: rest => hostTurn op rest s
  | [] => .next s

end Sys2Proof.Machine
end

