-- ==== Sys2Proof/Machine/Step.lean ====
section
/-! DEFINITION. One step of the whole system, and placing a command word to run next. -/

namespace Sys2Proof.Machine

/-- One step: a refused configuration does not run (70_reset_and_hazards.md R174(c)); otherwise the agent whose turn it
is moves (00_scope.md R3, 30_encoding.md R56). -/
def step (s : State) : Host.Outcome State Fault Refusal :=
  match s.refused, s.pending with
  | true, _ => .refused .configRefused
  | false, some w => busyTurn w s
  | false, none => idleTurn s

/-- The state after the host's write of a command word to CMD (10_state.md R20, 30_encoding.md R54), with the CORE step
due at once: the core fetches nothing, a command is placed in PENDING (log 8). -/
def State.withFetchWord (s : State) (nbits w : Nat) : State :=
  { s.issue (tableWord nbits w) with delay := 0 }

end Sys2Proof.Machine
end

