-- ==== Sys2Proof/Machine/HostProgram.lean ====
section
/-! DEFINITION. Host programs (30_encoding.md R63, R64): statements and their expansion into host actions. "An operand
out of its range is an assembly error (the program has no encoding), never a truncation": then `none`. -/

namespace Sys2Proof.Machine

/-- A command statement: one of the commands, or a pseudo-instruction that expands to one (30_encoding.md R63, R64). -/
inductive CmdStmt where
  | instr (i : Instr)
  /-- `slice j` = `ext 11*j, 11`, j = 0..5. -/
  | slice (j : Nat)
  /-- `chk` = `ext 64, 2`. -/
  | chk
  /-- `pair g` = `ext 2*g, 2`, g = 0..31. -/
  | pair (g : Nat)
deriving DecidableEq, Repr

/-- A statement of a host program (30_encoding.md R63, R64). -/
inductive Stmt where
  /-- `wr REG, v`. -/
  | wr (r : Reg) (v : Nat)
  /-- `rd REG`. -/
  | rd (r : Reg)
  /-- `dwb a, b0, b1, ...`. -/
  | dwb (a : Nat) (bytes : List Nat)
  /-- `twb a, "text"`, the text as character codes. -/
  | twb (a : Nat) (text : List Nat)
  /-- `drb a, n`. -/
  | drb (a n : Nat)
  /-- `trb a, n`. -/
  | trb (a n : Nat)
  /-- A command statement alone. -/
  | cmd (c : CmdStmt)
  /-- `wait`. -/
  | wait
  /-- `run c`: the command statement, then `wait`. -/
  | run (c : CmdStmt)
deriving DecidableEq, Repr

/-- The command a command statement stands for; `none` where an operand is out of range (30_encoding.md R63, R64). -/
def commandOf : CmdStmt → Option Instr
  | .instr i => if i.wellFormed then some i else none
  | .slice j => if j ≤ 5 then some (.ext (11 * j) 11) else none
  | .chk => some (.ext 64 2)
  | .pair g => if g ≤ 31 then some (.ext (2 * g) 2) else none

/-- The bus address of a register. -/
def regAddr (c : Config) (r : Reg) : Nat := c.regBase + r.offset

/-- A command statement is `wr CMD, <word>` (30_encoding.md R63). -/
def assembleCommand (c : Config) (st : CmdStmt) : Option HostOp :=
  (commandOf st).map fun i => .writeWord (regAddr c .cmd) (encode i)

/-- Byte writes from bus address `a` on; every value must be a byte. -/
def assembleBytes (a : Nat) (bytes : List Nat) : Option (List HostOp) :=
  if bytes.all fun b => decide (b < 256) then
    some (bytes.zipIdx.map fun b => .writeByte (a + b.2) (BitVec.ofNat 8 b.1))
  else none

/-- Byte reads of bus addresses `a .. a+n-1`. -/
def readBytesFrom (a n : Nat) : List HostOp := (List.range n).map fun k => .readByte (a + k)

/-- The host actions of a statement (30_encoding.md R63, R64). A buffer statement that leaves its buffer has no access
to stand for (20_memory.md R45) and is an assembly error (DEDUCED, log 14). -/
def assemble (c : Config) : Stmt → Option (List HostOp)
  | .wr r v => if v < 2 ^ 32 then some [.writeWord (regAddr c r) (BitVec.ofNat 32 v)] else none
  | .rd r => some [.readWord (regAddr c r)]
  | .dwb a bytes => if a + bytes.length ≤ c.dmemSize then assembleBytes (c.dmemBase + a) bytes else none
  | .twb a text => if a + text.length ≤ c.tmemSize then assembleBytes (c.tmemBase + a) text else none
  | .drb a n => if a + n ≤ c.dmemSize then some (readBytesFrom (c.dmemBase + a) n) else none
  | .trb a n => if a + n ≤ c.tmemSize then some (readBytesFrom (c.tmemBase + a) n) else none
  | .cmd st => (assembleCommand c st).map fun op => [op]
  | .wait => some [.poll]
  | .run st => (assembleCommand c st).map fun op => [op, .poll]

/-- The host actions of a program, statement after statement. -/
def assembleAll (c : Config) : List Stmt → Option (List HostOp)
  | [] => some []
  | st :: sts =>
    match assemble c st, assembleAll c sts with
    | some ops, some rest => some (ops ++ rest)
    | _, _ => none

/-- The HOST is given a program to carry out after what it is already doing (log 8). -/
def State.withProgram (s : State) (ops : List HostOp) : State := { s with inputs := s.inputs ++ ops }

end Sys2Proof.Machine
end

