-- ==== Sys2Proof/Safety.lean ====
section
/-! DEFINITION. What counts as a good run (70_reset_and_hazards.md R174, R177), the invariant of the machine, and words
that claims use. -/

namespace Sys2Proof.Machine

/-- `n` steps from `s`, stopping at the first fault or refusal. -/
def stepTimes : Nat → State → Host.Outcome State Fault Refusal
  | 0, s => .next s
  | n + 1, s =>
    match step s with
    | .next t => stepTimes n t
    | .fault f => .fault f
    | .refused r => .refused r

/-- No mark of 70_reset_and_hazards.md R174 is set. -/
def State.noMark (s : State) : Bool := !s.hostProtocol && !s.uninitRead && !s.refused

/-- A run has ended: "the host has made its last access and PENDING = none" (70_reset_and_hazards.md R177). -/
def State.ended (s : State) : Bool := s.inputs.isEmpty && s.pending.isNone

/-- "a state with any of them set is never a good final state" (70_reset_and_hazards.md R174, R177). -/
def State.goodFinal (s : State) : Bool := s.ended && s.noMark

/-- The observation of a run: the final register file, DMEM and TMEM (70_reset_and_hazards.md R177). -/
structure Observation where
  registers : List Word
  dmem : Memory
  tmem : Memory
deriving DecidableEq, Repr

/-- The observation of a good final state; none of any other (70_reset_and_hazards.md R177). -/
def State.observation (s : State) : Option Observation :=
  if s.goodFinal then some ⟨Reg.all.map s.regValue, s.dmem, s.tmem⟩ else none

/-- Every byte of the range has been written (70_reset_and_hazards.md R171, R175). -/
def allWritten (l : List (Option Byte)) : Bool := l.all Option.isSome

/-- The host has written the buffer bytes that the command reads (70_reset_and_hazards.md R175). -/
def State.sourceWritten (s : State) : Instr → Bool
  | .enc => allWritten s.encSource
  | .dec => allWritten s.decSource
  | .nop => true
  | .ext _ _ => true
  | .par => true
  | .i2w _ => true
  | .w2i => true
  | .encb => true
  | .decb => true
  | .clr => true

/-- A buffer of `size` bytes: canonical, and no offset past the end (20_memory.md R40, R41). -/
def Memory.good (size : Nat) (m : Memory) : Prop := m.wf ∧ ∀ c ∈ m, c.1 < size

/-- The error record says something exactly when STATUS.ERR is set (10_state.md R23, R24). -/
def State.recordMatches (s : State) : Prop :=
  (s.err = true ↔ s.errCode ≠ .none) ∧ (s.err = false → s.errToken = 0 ∧ s.errAddr = 0)

/-- While a command is pending, DONE and ERR are 0 (30_encoding.md R54). -/
def State.pendingClear (s : State) : Prop := s.busy = true → s.done = false ∧ s.err = false

/-- THE INVARIANT: the buffers are canonical and inside their sizes, a configuration that runs is one the spec allows,
and STATUS and the error record agree. -/
structure State.Inv (s : State) : Prop where
  dmemGood : Memory.good s.cfg.dmemSize s.dmem
  tmemGood : Memory.good s.cfg.tmemSize s.tmem
  configGood : s.refused = false → configOK s.cfg = true
  record : s.recordMatches
  pendingClear : s.pendingClear

/-- A host action that a compliant host may take after a CMD write until it has read BUSY = 0
(70_reset_and_hazards.md R172): a STATUS read. -/
def isStatusRead (c : Config) : HostOp → Bool
  | .readWord addr => decide (busTarget c addr 4 = .reg (Reg.offset .status))
  | .poll => true
  | .writeWord _ _ => false
  | .readByte _ => false
  | .writeByte _ _ => false
  | .otherAccess _ _ => false
  | .reset => false

/-- The bus address and the width in bytes of a host access; none for reset, which is no access. -/
def accessOf (c : Config) : HostOp → Option (Nat × Nat)
  | .readWord addr => some (addr, 4)
  | .writeWord addr _ => some (addr, 4)
  | .readByte addr => some (addr, 1)
  | .writeByte addr _ => some (addr, 1)
  | .otherAccess addr bytes => some (addr, bytes)
  | .poll => some (statusAddr c, 4)
  | .reset => none

/-- `s` after a command that changed nothing but what `complete` changes, and raised `e`. -/
def State.failed (s : State) (e : ErrInfo) : State := (s.raiseErr e).complete

/-- The bits of a register a host write stores (10_state.md R22, R25, R29, R30). -/
def storedBits : Reg → Word
  | .cmd => 0
  | .status => 0
  | .errCode => 0
  | .errToken => 0
  | .errAddr => 0
  | .res => 0
  | .srcAddr => 0xFFFFFFFF
  | .srcLen => 0xFFFFFFFF
  | .dstAddr => 0xFFFFFFFF
  | .outLen => 0
  | .blkW0 => 0xFFFFFFFF
  | .blkW1 => 0xFFFFFFFF
  | .blkW2 => 0xFF000000
  | .wchr => 0xFFFFFFFF
  | .wlen => 0xFFFFFFFF
  | .idx0 => 0x7FF
  | .idx1 => 0x7FF
  | .idx2 => 0x7FF
  | .idx3 => 0x7FF
  | .idx4 => 0x7FF
  | .idx5 => 0x7FF

/-- The bits of a register that are not reserved: the column "bits used" of 10_state.md R22. -/
def usedBits : Reg → Word
  | .cmd => 0xFFFFFFFF
  | .status => 0x7
  | .errCode => 0xF
  | .errToken => 0xFFFFFFFF
  | .errAddr => 0xFFFFFFFF
  | .res => 0xFFFFFFFF
  | .srcAddr => 0xFFFFFFFF
  | .srcLen => 0xFFFFFFFF
  | .dstAddr => 0xFFFFFFFF
  | .outLen => 0xFFFFFFFF
  | .blkW0 => 0xFFFFFFFF
  | .blkW1 => 0xFFFFFFFF
  | .blkW2 => 0xFF000000
  | .wchr => 0xFFFFFFFF
  | .wlen => 0xFFFFFFFF
  | .idx0 => 0x7FF
  | .idx1 => 0x7FF
  | .idx2 => 0x7FF
  | .idx3 => 0x7FF
  | .idx4 => 0x7FF
  | .idx5 => 0x7FF

/-- One stream bit of a byte list flipped (20_memory.md R35, 41_parity.md R82(a)). -/
def flipBit (p : List Byte) (b : Nat) : List Byte :=
  p.set (b / 8) (p.getD (b / 8) 0 ^^^ BitVec.ofNat 8 (2 ^ (7 - b % 8)))

/-- The number of set bits of `n` among bits `lo`, `lo+2`, ..., below bit 64 (41_parity.md R81(c)). -/
def popcountFrom (lo n : Nat) : Nat := ((List.range 32).filter fun k => n.testBit (2 * k + lo)).length

/-- The index a token looks up to, where it is in the dictionary (42_dictionary.md R92). -/
def tokenIndex (d : List (List Byte)) (tok : Token) : Nat := (indexOf d tok.chars).getD 0

/-- A token that passes the length check and the lookup (44_decoder.md R120). -/
def tokenGood (d : List (List Byte)) (tok : Token) : Bool := lexOK tok.chars.length && (indexOf d tok.chars).isSome

/-- The six tokens of group `g`. -/
def groupTokens (toks : List Token) (g : Nat) : List Token := (toks.drop (6 * g)).take 6

/-- Group `g`'s checksum verifies (44_decoder.md R116, R120). -/
def groupVerifies (d : List (List Byte)) (toks : List Token) (g : Nat) : Bool :=
  verifies (concat ((groupTokens toks g).map (tokenIndex d)))

end Sys2Proof.Machine
end

