-- ==== Sys2Proof/Certificates/Slice0/Obligations.lean ====
section
/-! DEFINITION. The statements for the provers. A statement about an instruction gives the whole next state by an
equation, so that every field it does not name is unchanged: result, frame and completion in one. Each docstring names
the rule it formalises; spec/ is the only source. -/

open Sys2Proof Sys2Proof.Machine

/-! ### Encoding -/

/-- 30_encoding.md R65: each listed statement is the listed command, its word is the listed word, and that word decodes to
it; with I2W-8 of 95_test_vectors.md, so that every format is there. -/
def Obligations.ListedWordsDecode : Prop :=
  ∀ p ∈ ([(.instr .nop, .nop, 0x00000000), (.instr .par, .par, 0x20000000), (.instr .w2i, .w2i, 0x40000000),
      (.instr .encb, .encb, 0x50000000), (.instr .decb, .decb, 0x60000000), (.instr .enc, .enc, 0x70000000),
      (.instr .dec, .dec, 0x80000000), (.instr .clr, .clr, 0x90000000), (.slice 0, .ext 0 11, 0x10000B00),
      (.slice 1, .ext 11 11, 0x10000B0B), (.slice 2, .ext 22 11, 0x10000B16), (.slice 3, .ext 33 11, 0x10000B21),
      (.slice 4, .ext 44 11, 0x10000B2C), (.slice 5, .ext 55 11, 0x10000B37), (.chk, .ext 64 2, 0x10000240),
      (.pair 0, .ext 0 2, 0x10000200), (.pair 31, .ext 62 2, 0x1000023E),
      (.instr (.i2w 0x7FC), .i2w 0x7FC, 0x300007FC)] : List (CmdStmt × Instr × Word)),
    commandOf p.1 = some p.2.1 ∧ encode p.2.1 = p.2.2 ∧ decode p.2.2 = .ok p.2.1

/-- R57, R58, R62: every well-formed command, with every operand at every value its field admits, is what its word
decodes to. -/
def Obligations.DecodeOfEncode : Prop :=
  ∀ i : Instr, i.wellFormed = true → decode (encode i) = .ok i

/-- R57, R62: a word that decodes is the word of the command it decodes to, and that command is well formed; so no two
words decode to one command. -/
def Obligations.EncodeOfDecode : Prop :=
  ∀ (w : Word) (i : Instr), decode w = .ok i → i.wellFormed = true ∧ encode i = w

/-- R60, R62: the legal words, as numbers. -/
def Obligations.LegalWordsAreTheListedOnes : Prop :=
  ∀ w : Word, (∃ i, decode w = .ok i) ↔
    (w.toNat % 0x10000000 = 0 ∧ w.toNat / 0x10000000 ∈ [0x0, 0x2, 0x4, 0x5, 0x6, 0x7, 0x8, 0x9]) ∨
    (0x10000000 ≤ w.toNat ∧ w.toNat < 0x10002000 ∧ w.toNat / 0x80 % 2 = 0) ∨
    (0x30000000 ≤ w.toNat ∧ w.toNat < 0x30000800)

/-- R63: a command statement assembles to one write of CMD, and the word it writes decodes to the command. -/
def Obligations.CommandStatementWritesItsWord : Prop :=
  ∀ (c : Config) (st : CmdStmt) (i : Instr), commandOf st = some i →
    assemble c (.cmd st) = some [.writeWord c.regBase (encode i)] ∧ decode (encode i) = .ok i

/-! ### Reset, power-on, configuration -/

/-- 70_reset_and_hazards.md R170: the host's reset (log 8), in every state, sets every register to 0 and PENDING to none,
and leaves the ROM; with no ENC or DEC pending it leaves DMEM and TMEM. The marks stay (R174), and the host may access
the core at once (log 11). -/
def Obligations.ResetClearsRegisters : Prop :=
  ∀ (s : State) (rest : List HostOp), ∃ t : State, hostTurn .reset rest s = .next t ∧ t.inputs = rest ∧
    (∀ off, t.readOffset off = 0) ∧ t.pending = none ∧ t.locked = false ∧ t.cfg = s.cfg ∧
    (s.pending.map decode ≠ some (.ok .enc) → t.tmem = s.tmem) ∧
    (s.pending.map decode ≠ some (.ok .dec) → t.dmem = s.dmem) ∧
    t.hostProtocol = s.hostProtocol ∧ t.uninitRead = s.uninitRead ∧ t.refused = s.refused

/-- R173: the host's reset (log 8) while a command is pending leaves every register 0 and nothing pending; while ENC is
pending it makes every TMEM byte at DST_ADDR (its value at the reset, log 11) and above unwritten, while DEC is pending
every such DMEM byte; every other byte of both buffers reads as before. -/
def Obligations.ResetForgetsAnAbandonedOutput : Prop :=
  ∀ (s : State) (w : Word) (rest : List HostOp), s.pending = some w → ∃ t : State,
    hostTurn .reset rest s = .next t ∧ (∀ off, t.readOffset off = 0) ∧ t.pending = none ∧
    (decode w = .ok .enc → t.dmem = s.dmem ∧
      ∀ a, t.tmem.read? a = if a < s.dstAddr.toNat then s.tmem.read? a else none) ∧
    (decode w = .ok .dec → t.tmem = s.tmem ∧
      ∀ a, t.dmem.read? a = if a < s.dstAddr.toNat then s.dmem.read? a else none) ∧
    (decode w ≠ .ok .enc → decode w ≠ .ok .dec → t.tmem = s.tmem ∧ t.dmem = s.dmem)

/-- 00_scope.md R8 with the sizes of R7, 70_reset_and_hazards.md R174(c). That the refusal is the first step's, and comes
for exactly a configuration that fails one of the conditions, is the model's reading (log 3, DEDUCED). The conditions are
in the spec's own words. -/
def Obligations.RefusedConfigurationDoesNotRun : Prop :=
  ∀ c : Config, step (State.powerOn c) = .refused .configRefused ↔
    ¬ (c.dict.length = 2048 ∧ (∀ e ∈ c.dict, 1 ≤ e.length ∧ e.length ≤ 4) ∧
      (∀ e ∈ c.dict, ∀ ch ∈ e, 0x21 ≤ ch.toNat ∧ ch.toNat ≤ 0x7E) ∧
      (∀ (i j : Nat) (e f : List Byte), c.dict[i]? = some e → c.dict[j]? = some f → foldWord e = foldWord f → i = j) ∧
      (0 < c.dmemSize ∧ c.dmemSize ≤ 2 ^ 31) ∧ (0 < c.tmemSize ∧ c.tmemSize ≤ 2 ^ 31))

/-- The invariant holds after power-on with any configuration. -/
def Obligations.PowerOnHasInvariant : Prop := ∀ c : Config, (State.powerOn c).Inv

/-- The invariant holds at State.reset, whose configuration is the model's choice (log 1). -/
def Obligations.ResetHasInvariant : Prop := State.reset.Inv

/-! ### The step, invariants of every step -/

/-- 30_encoding.md R56: when the CORE's turn has come (log 7) and the pending word decodes, the step is the decoded
command's meaning. -/
def Obligations.StepRunsDecodedCommand : Prop :=
  ∀ (s : State) (w : Word) (i : Instr), s.refused = false → s.pending = some w → (s.delay = 0 ∨ s.inputs = []) →
    decode w = .ok i → step s = exec i s

/-- 45_control.md R142 with 30_encoding.md R60, R56: a pending word that is no command's word raises ILLEGAL_CMD and
changes nothing else. When the CORE's turn has come, also at once with a delay left where the host has no action left, is
the model's schedule (log 7, DESIGN CHOICE). -/
def Obligations.IllegalWordRaisesIllegalCmd : Prop :=
  ∀ (s : State) (w : Word), s.refused = false → s.pending = some w → (s.delay = 0 ∨ s.inputs = []) →
    (∀ i : Instr, i.wellFormed = true → encode i ≠ w) →
    step s = .next { s with
      pending := none, done := true, err := true, errCode := .illegalCmd, errToken := 0, errAddr := 0 }

/-- R55: every command completes, from every state, whether or not it raises; it leaves the configuration, the marks
HOST_PROTOCOL and REFUSED and the host's part of the state alone. -/
def Obligations.EveryCommandCompletes : Prop :=
  ∀ (i : Instr) (s : State), ∃ t : State, exec i s = .next t ∧ t.pending = none ∧ t.done = true ∧ t.cfg = s.cfg ∧
    t.hostProtocol = s.hostProtocol ∧ t.refused = s.refused ∧ t.inputs = s.inputs ∧ t.delay = s.delay ∧
    t.schedule = s.schedule ∧ t.mustPoll = s.mustPoll ∧ t.readLog = s.readLog

/-- Every step keeps the invariant: canonical buffers inside their sizes (20_memory.md R40, R41), an allowed configuration
(00_scope.md R7, R8), STATUS and the error record in agreement (10_state.md R23, R24). -/
def Obligations.StepKeepsInvariant : Prop :=
  ∀ s t : State, s.Inv → step s = .next t → t.Inv

/-- 70_reset_and_hazards.md R174: the marks are never cleared, and REFUSED never changes. -/
def Obligations.MarksAreNeverCleared : Prop :=
  ∀ s t : State, step s = .next t →
    (s.hostProtocol = true → t.hostProtocol = true) ∧ (s.uninitRead = true → t.uninitRead = true) ∧
    t.refused = s.refused

/-- 10_state.md R31: no command, host access or reset changes the I2W-ROM. That the sizes and bases of 00_scope.md R7
never change either is the model's (log 2, DEDUCED). -/
def Obligations.RomNeverChanges : Prop := ∀ s t : State, step s = .next t → t.cfg = s.cfg

/-- R33: ENC writes TMEM and DEC writes DMEM; no other command touches either buffer. -/
def Obligations.OnlyEncAndDecWriteBuffers : Prop :=
  ∀ (i : Instr) (s t : State), exec i s = .next t →
    (i ≠ .enc → t.tmem = s.tmem) ∧ (i ≠ .dec → t.dmem = s.dmem)

/-- Frame of all commands by register: which commands write RES (R26), OUT_LEN and the operand registers (R27), WCHR and
WLEN (R28), IDX (R29) and BLK (R25). That CLR writes SRC_ADDR, SRC_LEN and DST_ADDR is 45_control.md R141 (log 12). -/
def Obligations.CommandsLeaveOtherRegisters : Prop :=
  ∀ (i : Instr) (s t : State), exec i s = .next t → i ≠ .clr →
    t.srcAddr = s.srcAddr ∧ t.srcLen = s.srcLen ∧ t.dstAddr = s.dstAddr ∧
    (i ≠ .enc ∧ i ≠ .dec → t.outLen = s.outLen ∧ t.uninitRead = s.uninitRead ∧ t.freeCount = s.freeCount) ∧
    (i = .nop ∨ i = .enc ∨ i = .dec ∨ (∃ n, i = .i2w n) → t.res = s.res) ∧
    ((∀ n, i ≠ .i2w n) → t.wchr = s.wchr ∧ t.wlen = s.wlen) ∧
    (i ≠ .encb → t.idx = s.idx) ∧
    (i ≠ .encb ∧ i ≠ .decb → t.blk = s.blk)

/-- R56, R172, R178: a compliant host that waits after its CMD write (or is inside its wait) gets the command carried
out whatever the delay: `delay` polls read BUSY = 1, the CORE step follows, and the next poll ends the wait. -/
def Obligations.WaitSeesTheCommandCompleted : Prop :=
  ∀ (s : State) (w : Word) (i : Instr) (rest : List HostOp),
    s.refused = false → s.pending = some w → decode w = .ok i → s.inputs = .poll :: rest →
    windowsApart s.cfg = true →
    ∃ u t : State,
      exec i { s with delay := 0, readLog := s.readLog ++ List.replicate s.delay s.statusWord } = .next u ∧
      t = { u with inputs := rest, readLog := u.readLog ++ [u.statusWord], mustPoll := false } ∧
      stepTimes (s.delay + 2) s = .next t

/-! ### The host port -/

/-- 30_encoding.md R54: a host write of CMD while BUSY = 0 issues the command; no other register changes. -/
def Obligations.CmdWriteIssues : Prop :=
  ∀ (s : State) (w : Word) (rest : List HostOp), s.refused = false → s.pending = none → s.mustPoll = false →
    windowsApart s.cfg = true → s.inputs = .writeWord s.cfg.regBase w :: rest →
    step s = .next { s with
      pending := some w, done := false, err := false, errCode := .none, errToken := 0, errAddr := 0,
      inputs := rest, delay := s.schedule.headD 0, schedule := s.schedule.tail, mustPoll := true }

/-- 10_state.md R22, R25, R29: a host write of a register other than CMD stores the register's writable bits and changes
no other register, no buffer and nothing pending; and a host write on the bus, at the offset R22's table gives the
register, is that write. -/
def Obligations.RegisterWriteStoresItsBits : Prop :=
  ∀ (s : State) (v : Word),
    (∀ r : Reg, r ≠ .cmd →
      (∀ r' : Reg, (s.writeReg r v).regValue r' =
        if r' = r then (v &&& storedBits r) ||| (s.regValue r &&& ~~~ storedBits r) else s.regValue r') ∧
      (s.writeReg r v).dmem = s.dmem ∧ (s.writeReg r v).tmem = s.tmem ∧ (s.writeReg r v).pending = s.pending) ∧
    (s.locked = false → windowsApart s.cfg = true →
      ∀ p ∈ ([(0x00, .cmd), (0x04, .status), (0x08, .errCode), (0x0C, .errToken), (0x10, .errAddr), (0x14, .res),
          (0x18, .srcAddr), (0x1C, .srcLen), (0x20, .dstAddr), (0x24, .outLen), (0x28, .blkW0), (0x2C, .blkW1),
          (0x30, .blkW2), (0x34, .wchr), (0x38, .wlen), (0x3C, .idx0), (0x40, .idx1), (0x44, .idx2), (0x48, .idx3),
          (0x4C, .idx4), (0x50, .idx5)] : List (Nat × Reg)),
        busWriteWord (s.cfg.regBase + p.1) v s = .next (s.writeReg p.2 v))

/-- R30: reserved offsets and reserved fields read 0; a write to a reserved offset or a read-only register changes no
state, on the bus too (where the windows are apart, R43, and the host may access the core, R172), and what is written to
reserved bits does not matter. -/
def Obligations.ReservedReadsZeroAndIgnoresWrites : Prop :=
  ∀ (s : State) (v v' : Word),
    (∀ off, 0x54 ≤ off → s.readOffset off = 0 ∧ s.writeOffset off v = s) ∧
    (∀ r : Reg, s.regValue r &&& ~~~ usedBits r = 0) ∧
    (∀ r ∈ [Reg.status, .errCode, .errToken, .errAddr, .res, .outLen], s.writeReg r v = s) ∧
    (∀ r : Reg, v &&& usedBits r = v' &&& usedBits r → s.writeReg r v = s.writeReg r v') ∧
    (s.locked = false → windowsApart s.cfg = true → ∀ off, off % 4 = 0 → off < 0x100 →
      0x54 ≤ off ∨ off ∈ [0x04, 0x08, 0x0C, 0x10, 0x14, 0x24] →
      busWriteWord (s.cfg.regBase + off) v s = .next s)

/-- R21, R23: the fields of STATUS, bit by bit. -/
def Obligations.StatusReadsItsFields : Prop :=
  ∀ s : State, s.statusWord.getLsbD 0 = s.pending.isSome ∧ s.statusWord.getLsbD 1 = s.done ∧
    s.statusWord.getLsbD 2 = s.err ∧ ∀ k, 3 ≤ k → s.statusWord.getLsbD k = false

/-- 20_memory.md R46: host reads have no side effect on the core, whatever they read. What a read may change is the
host's own record, and a mark of the model. -/
def Obligations.HostReadsHaveNoSideEffect : Prop :=
  ∀ (s t : State) (addr : Nat),
    (busReadWord addr s = .next t →
      t = { s with readLog := t.readLog, hostProtocol := t.hostProtocol, mustPoll := t.mustPoll }) ∧
    (busReadByte addr s = .next t →
      t = { s with
        readLog := t.readLog, hostProtocol := t.hostProtocol, uninitRead := t.uninitRead,
        freeCount := t.freeCount })

/-- R46: a host byte write to DMEM changes the addressed byte and nothing else; the same for TMEM. -/
def Obligations.HostByteWriteChangesOneByte : Prop :=
  ∀ (s : State) (a : Nat) (v : Byte), s.locked = false → windowsApart s.cfg = true →
    (a < s.cfg.dmemSize → ∃ m : Memory, busWriteByte (s.cfg.dmemBase + a) v s = .next { s with dmem := m } ∧
      m.read? a = some v ∧ ∀ b, b ≠ a → m.read? b = s.dmem.read? b) ∧
    (a < s.cfg.tmemSize → ∃ m : Memory, busWriteByte (s.cfg.tmemBase + a) v s = .next { s with tmem := m } ∧
      m.read? a = some v ∧ ∀ b, b ≠ a → m.read? b = s.tmem.read? b)

/-- 20_memory.md R43 and 10_state.md R22: a host word read in the register window at an aligned offset, and a host byte
read of a written buffer byte, return the register's or the byte's value; which register stands at which offset is R22's
table in its own numbers, the views of BLK are R25's sums and the numbers of ERR_CODE are 60_exceptions.md R150's. -/
def Obligations.HostReadsReturnTheValue : Prop :=
  ∀ (s : State) (a : Nat), s.locked = false → windowsApart s.cfg = true →
    (a < 256 → a % 4 = 0 →
      busReadWord (s.cfg.regBase + a) s = .next { s with readLog := s.readLog ++ [s.readOffset a] }) ∧
    (∀ p ∈ ([(0x00, 0), (0x04, s.statusWord), (0x0C, s.errToken), (0x10, s.errAddr), (0x14, s.res),
        (0x18, s.srcAddr), (0x1C, s.srcLen), (0x20, s.dstAddr), (0x24, s.outLen),
        (0x28, BitVec.ofNat 32 (2 ^ 24 * s.blk.b0.toNat + 2 ^ 16 * s.blk.b1.toNat + 2 ^ 8 * s.blk.b2.toNat +
          s.blk.b3.toNat)),
        (0x2C, BitVec.ofNat 32 (2 ^ 24 * s.blk.b4.toNat + 2 ^ 16 * s.blk.b5.toNat + 2 ^ 8 * s.blk.b6.toNat +
          s.blk.b7.toNat)),
        (0x30, BitVec.ofNat 32 (2 ^ 24 * s.blk.b8.toNat)), (0x34, s.wchr), (0x38, s.wlen),
        (0x3C, s.idx.i0.setWidth 32), (0x40, s.idx.i1.setWidth 32), (0x44, s.idx.i2.setWidth 32),
        (0x48, s.idx.i3.setWidth 32), (0x4C, s.idx.i4.setWidth 32), (0x50, s.idx.i5.setWidth 32)] : List (Nat × Word)),
      s.readOffset p.1 = p.2) ∧
    (∀ p ∈ ([(.none, 0), (.lexical, 1), (.unknownWord, 2), (.checksum, 3), (.structural, 4), (.bounds, 5),
        (.range, 6), (.illegalCmd, 7)] : List (ErrCode × Word)), s.errCode = p.1 → s.readOffset 0x08 = p.2) ∧
    (∀ v, a < s.cfg.dmemSize → s.dmem.read? a = some v →
      busReadByte (s.cfg.dmemBase + a) s = .next { s with readLog := s.readLog ++ [v.setWidth 32] }) ∧
    (∀ v, a < s.cfg.tmemSize → s.tmem.read? a = some v →
      busReadByte (s.cfg.tmemBase + a) s = .next { s with readLog := s.readLog ++ [v.setWidth 32] })

/-- 70_reset_and_hazards.md R172: after a CMD write, until a STATUS read has returned BUSY = 0 (log 6), any access to the
core but a STATUS read sets HOST_PROTOCOL and has no effect. A 32-bit read of STATUS is lawful in the window and outside
it: it returns the STATUS word, sets no mark, and leaves the window closed exactly when BUSY = 0. -/
def Obligations.AccessWhileLockedIsAViolation : Prop :=
  (∀ (s : State) (op : HostOp) (rest : List HostOp) (addr bytes : Nat), s.locked = true →
    windowsApart s.cfg = true → accessOf s.cfg op = some (addr, bytes) → busTarget s.cfg addr bytes ≠ .outside →
    isStatusRead s.cfg op = false →
    hostTurn op rest s = .next { s with inputs := rest, hostProtocol := true }) ∧
  ∀ (s : State) (rest : List HostOp), windowsApart s.cfg = true → ∃ t : State,
    hostTurn (.readWord (s.cfg.regBase + 0x04)) rest s = .next t ∧
    t = { s with inputs := rest, readLog := s.readLog ++ [s.statusWord], mustPoll := t.mustPoll } ∧
    (t.locked = false ↔ s.pending = none)

/-- 20_memory.md R44: a register access that is not 32 bits wide or not at a multiple of 4, and a buffer access that is
not 8 bits wide, set HOST_PROTOCOL and have no effect. -/
def Obligations.MisfitAccessIsAViolation : Prop :=
  ∀ (s : State) (rest : List HostOp) (addr bytes : Nat) (v : Word) (b : Byte), windowsApart s.cfg = true →
    let marked : Host.Outcome State Fault Refusal := .next { s with inputs := rest, hostProtocol := true }
    (touches s.cfg.regBase 256 addr 4 = true → ¬ (s.cfg.regBase ≤ addr ∧ (addr - s.cfg.regBase) % 4 = 0) →
      hostTurn (.readWord addr) rest s = marked ∧ hostTurn (.writeWord addr v) rest s = marked) ∧
    (touches s.cfg.regBase 256 addr 1 = true →
      hostTurn (.readByte addr) rest s = marked ∧ hostTurn (.writeByte addr b) rest s = marked) ∧
    (touches s.cfg.dmemBase s.cfg.dmemSize addr 4 = true ∨ touches s.cfg.tmemBase s.cfg.tmemSize addr 4 = true →
      hostTurn (.readWord addr) rest s = marked ∧ hostTurn (.writeWord addr v) rest s = marked) ∧
    (touches s.cfg.regBase 256 addr bytes = true ∨ touches s.cfg.dmemBase s.cfg.dmemSize addr bytes = true ∨
        touches s.cfg.tmemBase s.cfg.tmemSize addr bytes = true →
      hostTurn (.otherAccess addr bytes) rest s = marked)

/-- 20_memory.md R45: a host access that falls in none of the three windows changes no core state. -/
def Obligations.AccessOutsideChangesNothing : Prop :=
  ∀ (s : State) (op : HostOp) (rest : List HostOp) (addr bytes : Nat),
    accessOf s.cfg op = some (addr, bytes) →
    touches s.cfg.regBase 256 addr bytes = false → touches s.cfg.dmemBase s.cfg.dmemSize addr bytes = false →
    touches s.cfg.tmemBase s.cfg.tmemSize addr bytes = false →
    hostTurn op rest s = .next { s with inputs := rest }

/-! ### NOP and CLR -/

/-- 45_control.md R140: NOP's own body does nothing but complete; issued and carried out it clears STATUS.ERR and the
error record, ends with STATUS = 2 and changes nothing else; every other word of its opcode is illegal. -/
def Obligations.NopEndsWithStatusTwo : Prop :=
  (∀ v, 0 < v → v < 2 ^ 28 → (decode (BitVec.ofNat 32 v)).toOption = none) ∧
  (∀ s : State, exec .nop s = .next { s with pending := none, done := true }) ∧
  ∀ s : State, s.refused = false →
    ∃ t : State, step (s.withFetchWord 32 0x00000000) = .next t ∧ t.statusWord = 2 ∧
      t = { s with
        pending := none, done := true, err := false, errCode := .none, errToken := 0, errAddr := 0, delay := 0 }

/-- R141: after CLR, STATUS reads 2 and every other register 0; the buffers, the ROM and the marks are unchanged. That
SRC_ADDR, SRC_LEN and DST_ADDR are among them, against the sentence of 10_state.md R27, is log 12 (DEDUCED). -/
def Obligations.ClrZeroesEveryRegister : Prop :=
  decode 0x90000000 = .ok .clr ∧
  ∀ s : State, ∃ t : State, exec .clr s = .next t ∧ t.pending = none ∧
    (∀ off, t.readOffset off = if off = 0x04 then 2 else 0) ∧
    t.dmem = s.dmem ∧ t.tmem = s.tmem ∧ t.cfg = s.cfg ∧ t.hostProtocol = s.hostProtocol ∧
    t.uninitRead = s.uninitRead ∧ t.refused = s.refused ∧ t.freeCount = s.freeCount

/-! ### EXT and PAR -/

/-- 40_bitview.md R73, R74, with the arithmetic form R71(c) of the field: both the result and the BOUNDS error, and the
whole frame. -/
def Obligations.ExtReadsTheField : Prop :=
  ∀ (s : State) (start len : Nat), Instr.wellFormed (.ext start len) = true →
    (encode (.ext start len)).toNat = 0x10000000 + 0x100 * len + start ∧
    exec (.ext start len) s = .next (
      if start + len ≤ 72 then
        { s with
          pending := none, done := true,
          res := BitVec.ofNat 32 (bigEndian s.blk.bytes / 2 ^ (72 - start - len) % 2 ^ len) }
      else
        { s with
          pending := none, done := true, err := true, errCode := .bounds, errToken := 0, errAddr := 0 })

/-- R71(e): adjacent fields join to one field. -/
def Obligations.AdjacentFieldsJoin : Prop :=
  ∀ (buf : List Byte) (start len1 len2 : Nat),
    extract buf start (len1 + len2) = extract buf start len1 * 2 ^ len2 + extract buf (start + len1) len2

/-- 41_parity.md R80, R83: PAR writes the sum, modulo 4, of the thirty-two 2-bit groups of the 64 data bits into RES and
changes nothing else; BLKB[8] does not matter. -/
def Obligations.ParSumsThirtyTwoGroups : Prop :=
  decode 0x20000000 = .ok .par ∧
  ∀ s : State, exec .par s = .next { s with
    pending := none, done := true,
    res := BitVec.ofNat 32
      (((List.range 32).map fun g => bigEndian (s.blk.bytes.take 8) / 2 ^ (62 - 2 * g) % 4).sum % 4) }

/-- R81(c): the checksum as two population counts of the 64 data bits. -/
def Obligations.ChecksumCountsBits : Prop :=
  ∀ p : List Byte, p.length = 8 →
    checksum p = (2 * popcountFrom 1 (bigEndian p) + popcountFrom 0 (bigEndian p)) % 4

/-- R82(a): flipping any one of the 64 data bits changes the checksum. -/
def Obligations.ChecksumSeesEverySingleFlip : Prop :=
  ∀ (p : List Byte) (b : Nat), 8 ≤ p.length → b < 64 → checksum (flipBit p b) ≠ checksum p

/-! ### I2W and W2I -/

/-- 42_dictionary.md R90, R94: I2W on every 11-bit index writes the entry's codes and length, and nothing else. -/
def Obligations.IndexToWordWritesTheEntry : Prop :=
  ∀ (s : State) (index : Nat), configOK s.cfg = true → Instr.wellFormed (.i2w index) = true →
    (encode (.i2w index)).toNat = 0x30000000 + index ∧
    ∃ t : List Byte, s.cfg.dict[index]? = some t ∧ 1 ≤ t.length ∧ t.length ≤ 4 ∧
      exec (.i2w index) s = .next { s with
        pending := none, done := true,
        wchr := BitVec.ofNat 32
          (((List.range t.length).map fun k => 2 ^ (24 - 8 * k) * (t.getD k 0).toNat).sum),
        wlen := BitVec.ofNat 32 t.length }

/-- R95 with R91, R92: W2I's three outcomes, LEXICAL first, and its whole frame. -/
def Obligations.WordToIndexLooksUp : Prop :=
  decode 0x40000000 = .ok .w2i ∧
  ∀ s : State, configOK s.cfg = true →
    (s.wlen.toNat = 0 ∨ 4 < s.wlen.toNat →
      exec .w2i s = .next { s with
        pending := none, done := true, err := true, errCode := .lexical, errToken := 0, errAddr := 0 }) ∧
    (1 ≤ s.wlen.toNat → s.wlen.toNat ≤ 4 →
      (∀ (i : Nat) (e : List Byte), s.cfg.dict[i]? = some e →
        foldWord e = foldWord ((wordChars s.wchr).take s.wlen.toNat) →
        exec .w2i s = .next { s with pending := none, done := true, res := BitVec.ofNat 32 i }) ∧
      ((∀ e ∈ s.cfg.dict, foldWord e ≠ foldWord ((wordChars s.wchr).take s.wlen.toNat)) →
        exec .w2i s = .next { s with
          pending := none, done := true, err := true, errCode := .unknownWord, errToken := 0, errAddr := 0 }))

/-- R93(a): I2W then W2I gives the index back, for every dictionary the spec allows. -/
def Obligations.IndexWordRoundTrip : Prop :=
  ∀ (s : State) (index : Nat), configOK s.cfg = true → index ≤ 2047 →
    ∃ t u : State, exec (.i2w index) s = .next t ∧ exec .w2i t = .next u ∧
      u = { t with res := BitVec.ofNat 32 index }

/-! ### ENCB and DECB -/

/-- 43_encoder.md R102, with the integer form of the fields (40_bitview.md R76): BLKB[8], the six indices and RES, and
nothing else. -/
def Obligations.EncbAppendsAndSlices : Prop :=
  decode 0x50000000 = .ok .encb ∧
  ∀ s : State,
    let b : Block := { s.blk with b8 := BitVec.ofNat 8 (64 * checksum s.blk.bytes) }
    let v : Nat := bigEndian b.bytes
    exec .encb s = .next { s with
      pending := none, done := true, blk := b, res := BitVec.ofNat 32 (checksum s.blk.bytes),
      idx :=
        ⟨BitVec.ofNat 11 (v / 2 ^ 61), BitVec.ofNat 11 (v / 2 ^ 50), BitVec.ofNat 11 (v / 2 ^ 39),
          BitVec.ofNat 11 (v / 2 ^ 28), BitVec.ofNat 11 (v / 2 ^ 17), BitVec.ofNat 11 (v / 2 ^ 6)⟩ }

/-- 44_decoder.md R117 with R115(a): DECB writes BLK (the six indices concatenated) and RES before its check, and raises
CHECKSUM with ERR_TOKEN = 5 exactly when the checksums differ; nothing else changes. -/
def Obligations.DecbConcatenatesAndVerifies : Prop :=
  decode 0x60000000 = .ok .decb ∧
  ∀ s : State, ∃ b : Block,
    bigEndian b.bytes =
      2 ^ 61 * s.idx.i0.toNat + 2 ^ 50 * s.idx.i1.toNat + 2 ^ 39 * s.idx.i2.toNat + 2 ^ 28 * s.idx.i3.toNat +
        2 ^ 17 * s.idx.i4.toNat + 2 ^ 6 * s.idx.i5.toNat ∧
    exec .decb s = .next (
      if checksum b.bytes = s.idx.i5.toNat % 4 then
        { s with pending := none, done := true, blk := b, res := BitVec.ofNat 32 (checksum b.bytes) }
      else
        { s with
          pending := none, done := true, blk := b, res := BitVec.ofNat 32 (checksum b.bytes),
          err := true, errCode := .checksum, errToken := 5, errAddr := 0 })

/-- R115(e), R116: DECB after ENCB rebuilds the same block, verifies it and changes nothing. -/
def Obligations.DecbUndoesEncb : Prop :=
  ∀ s : State, ∃ t : State, exec .encb s = .next t ∧ exec .decb t = .next t

/-- R115(c), (d): ENCB after a DECB that verified gives the same indices and the same block. -/
def Obligations.EncbUndoesDecb : Prop :=
  ∀ s t : State, exec .decb s = .next t → checksum t.blk.bytes = s.idx.i5.toNat % 4 → exec .encb t = .next t

/-! ### ENC -/

/-- 43_encoder.md R107: RANGE of the source, RANGE of the text, or the text in TMEM byte by byte with every other TMEM byte
and every other field unchanged. `b` is what the source reads as and `u` the state after the reading: for a source the
host has written, its bytes and `s` itself; for unwritten bytes, free values, the mark UNINIT_READ and the model's count
of free values (70_reset_and_hazards.md R171; log 5). -/
def Obligations.EncWritesTheText : Prop :=
  decode 0x70000000 = .ok .enc ∧
  ∀ s : State,
    let b : List Byte := s.readBytes s.encSource
    let u : State := s.noteReads s.encSource
    (∀ l : List Byte, s.encSource = l.map some → b = l ∧ u = s) ∧
    (s.cfg.dmemSize < s.srcAddr.toNat + s.srcLen.toNat →
      exec .enc s = .next { s with
        pending := none, done := true, outLen := 0, err := true, errCode := .range, errToken := 0, errAddr := 0 }) ∧
    (s.srcAddr.toNat + s.srcLen.toNat ≤ s.cfg.dmemSize →
      (s.cfg.tmemSize < s.dstAddr.toNat + (encodeText s.cfg.dict b).length →
        exec .enc s = .next { u with
          pending := none, done := true, outLen := 0, err := true, errCode := .range, errToken := 0,
          errAddr := 0 }) ∧
      (s.dstAddr.toNat + (encodeText s.cfg.dict b).length ≤ s.cfg.tmemSize →
        ∃ m : Memory,
          exec .enc s = .next { u with
            pending := none, done := true, outLen := BitVec.ofNat 32 (encodeText s.cfg.dict b).length, tmem := m } ∧
          (∀ k v, (encodeText s.cfg.dict b)[k]? = some v → m.read? (s.dstAddr.toNat + k) = some v) ∧
          ∀ a, a < s.dstAddr.toNat ∨ s.dstAddr.toNat + (encodeText s.cfg.dict b).length ≤ a →
            m.read? a = s.tmem.read? a))

/-- R106: the shape of the text for every dictionary the spec allows: 6 words a block joined by 6*NB - 1 single
spaces, its length the words' lengths and those spaces, between 12*NB - 1 and 30*NB - 1 codes, no other separator code; the empty buffer gives the empty text. -/
def Obligations.TextHasTheStatedShape : Prop :=
  ∀ (c : Config) (b : List Byte), configOK c = true →
    (encodeWords c.dict b).length = 6 * ((b.length + 7) / 8) ∧
    (b = [] → encodeText c.dict b = []) ∧
    (b ≠ [] →
      (encodeText c.dict b).length + 1 =
        ((encodeWords c.dict b).map List.length).sum + 6 * ((b.length + 7) / 8) ∧
      12 * ((b.length + 7) / 8) ≤ (encodeText c.dict b).length + 1 ∧
      (encodeText c.dict b).length + 1 ≤ 30 * ((b.length + 7) / 8) ∧
      (encodeText c.dict b).countP isSep + 1 = 6 * ((b.length + 7) / 8) ∧
      ∀ ch ∈ encodeText c.dict b, isSep ch = true → ch = 0x20#8)

/-! ### DEC -/

/-- 44_decoder.md R121: DEC's checks in their order, its commit and its whole frame; `b` and `u` as in EncWritesTheText. The
group fold is `decodeGroups` (R120), of which FirstBadTokenIsReported, FirstBadGroupIsReported and GoodGroupsDecode say
what it answers. -/
def Obligations.DecChecksThenCommits : Prop :=
  decode 0x80000000 = .ok .dec ∧
  ∀ s : State,
    let b : List Byte := s.readBytes s.decSource
    let u : State := s.noteReads s.decSource
    let toks := tokenize b s.srcAddr.toNat
    let nt := toks.length
    (∀ l : List Byte, s.decSource = l.map some → b = l ∧ u = s) ∧
    (s.cfg.tmemSize < s.srcAddr.toNat + s.srcLen.toNat →
      exec .dec s = .next { s with
        pending := none, done := true, outLen := 0, err := true, errCode := .range, errToken := 0, errAddr := 0 }) ∧
    (s.srcAddr.toNat + s.srcLen.toNat ≤ s.cfg.tmemSize →
      (nt % 6 ≠ 0 → ∃ tok, toks[6 * (nt / 6)]? = some tok ∧
        exec .dec s = .next { u with
          pending := none, done := true, outLen := 0, err := true, errCode := .structural,
          errToken := BitVec.ofNat 32 (6 * (nt / 6)), errAddr := BitVec.ofNat 32 tok.addr }) ∧
      (nt % 6 = 0 → s.cfg.dmemSize < s.dstAddr.toNat + 8 * (nt / 6) →
        exec .dec s = .next { u with
          pending := none, done := true, outLen := 0, err := true, errCode := .range, errToken := 0,
          errAddr := 0 }) ∧
      (nt % 6 = 0 → s.dstAddr.toNat + 8 * (nt / 6) ≤ s.cfg.dmemSize →
        (∀ e, decodeGroups s.cfg.dict 0 toks = .error e →
          exec .dec s = .next { u with
            pending := none, done := true, outLen := 0, err := true, errCode := e.code,
            errToken := BitVec.ofNat 32 e.tok, errAddr := BitVec.ofNat 32 e.addr }) ∧
        (∀ out, decodeGroups s.cfg.dict 0 toks = .ok out → out.length = 8 * (nt / 6) ∧
          ∃ m : Memory,
            exec .dec s = .next { u with
              pending := none, done := true, outLen := BitVec.ofNat 32 (8 * (nt / 6)), dmem := m } ∧
            (∀ k v, out[k]? = some v → m.read? (s.dstAddr.toNat + k) = some v) ∧
            ∀ a, a < s.dstAddr.toNat ∨ s.dstAddr.toNat + 8 * (nt / 6) ≤ a → m.read? a = s.dmem.read? a)))

/-- R118: the tokens of a text that starts at `s`, laid end to end with one separator code between two, are the text: the
first starts at `s`, each next one after its predecessor's separator, the last ends where the text ends; no token holds
a separator; m separators give m + 1 tokens; the empty text has none. -/
def Obligations.TokensAreTheStretchesBetweenSeparators : Prop :=
  ∀ (t : List Byte) (s : Nat),
    (t = [] → tokenize t s = []) ∧
    (t ≠ [] → (tokenize t s).length = t.countP isSep + 1 ∧
      (∃ tok, (tokenize t s)[0]? = some tok ∧ tok.addr = s) ∧
      ∃ tok, (tokenize t s)[t.countP isSep]? = some tok ∧ tok.addr + tok.chars.length = s + t.length) ∧
    (∀ tok ∈ tokenize t s, s ≤ tok.addr ∧ (t.drop (tok.addr - s)).take tok.chars.length = tok.chars ∧
      ∀ c ∈ tok.chars, isSep c = false) ∧
    ∀ i tok tok', (tokenize t s)[i]? = some tok → (tokenize t s)[i + 1]? = some tok' →
      tok'.addr = tok.addr + tok.chars.length + 1 ∧
        ∃ c, t[tok.addr - s + tok.chars.length]? = some c ∧ isSep c = true

/-- R120 and 60_exceptions.md R152: when every group verifies and every token is good, the output is the groups' eight
data bytes in order. -/
def Obligations.GoodGroupsDecode : Prop :=
  ∀ (d : List (List Byte)) (toks : List Token) (n : Nat), toks.length % 6 = 0 →
    (∀ tok ∈ toks, tokenGood d tok = true) → (∀ g < toks.length / 6, groupVerifies d toks g = true) →
    decodeGroups d n toks = .ok ((List.range (toks.length / 6)).flatMap fun g =>
      (concat ((groupTokens toks g).map (tokenIndex d))).take 8)

/-- R120, R152: the first bad token is reported, before the checksum of its own group and before every later token, when
every earlier token is good and every earlier group verifies; LEXICAL if its length is bad, else UNKNOWN_WORD. -/
def Obligations.FirstBadTokenIsReported : Prop :=
  ∀ (d : List (List Byte)) (toks : List Token) (k : Nat) (tok : Token), toks.length % 6 = 0 →
    toks[k]? = some tok → tokenGood d tok = false →
    (∀ j tok', j < k → toks[j]? = some tok' → tokenGood d tok' = true) →
    (∀ g < k / 6, groupVerifies d toks g = true) →
    decodeGroups d 0 toks =
      .error ⟨if lexOK tok.chars.length then .unknownWord else .lexical, k, tok.addr⟩

/-- R120, R152: the first group that does not verify is reported, by its sixth token, when every token up to it is good
and every earlier group verifies. -/
def Obligations.FirstBadGroupIsReported : Prop :=
  ∀ (d : List (List Byte)) (toks : List Token) (g : Nat) (tok : Token), toks.length % 6 = 0 →
    toks[6 * g + 5]? = some tok → groupVerifies d toks g = false →
    (∀ j tok', j ≤ 6 * g + 5 → toks[j]? = some tok' → tokenGood d tok' = true) →
    (∀ g' < g, groupVerifies d toks g' = true) →
    decodeGroups d 0 toks = .error ⟨.checksum, 6 * g + 5, tok.addr⟩

/-- R119, R122(d): changing the case of letters of the text changes nothing that DEC does. -/
def Obligations.DecIgnoresCase : Prop :=
  ∀ (s : State) (m : Memory) (b b' : List Byte), s.decSource = b.map some →
    State.decSource { s with tmem := m } = b'.map some → foldWord b = foldWord b' →
    ∃ t : State, exec .dec s = .next t ∧ exec .dec { s with tmem := m } = .next { t with tmem := m }

/-- R122(b), (c), DOC0's decode(encode(b)) == b padded: for every dictionary the spec allows, DEC of the text that ENC
wrote succeeds and writes Pad(b). -/
def Obligations.EncodeDecodeRoundTrip : Prop :=
  ∀ (s : State) (b : List Byte) (dst : Word), configOK s.cfg = true → s.encSource = b.map some →
    s.srcAddr.toNat + s.srcLen.toNat ≤ s.cfg.dmemSize →
    s.dstAddr.toNat + (encodeText s.cfg.dict b).length ≤ s.cfg.tmemSize →
    dst.toNat + 8 * ((b.length + 7) / 8) ≤ s.cfg.dmemSize →
    ∃ t u : State, exec .enc s = .next t ∧
      exec .dec { t with srcAddr := t.dstAddr, srcLen := t.outLen, dstAddr := dst } = .next u ∧
      u.err = s.err ∧ u.outLen.toNat = 8 * ((b.length + 7) / 8) ∧ u.tmem = t.tmem ∧
      u.dmem.range dst.toNat (8 * ((b.length + 7) / 8)) = (pad b).map some

/-! ### Errors and unwritten bytes -/

/-- 60_exceptions.md R151, 92_eei_decisions.md D16: an ENC or DEC that raises leaves both buffers unchanged and
OUT_LEN = 0, and changes nothing but STATUS, the error record and the model's note of unwritten bytes. -/
def Obligations.FailedBufferCommandWritesNoBuffer : Prop :=
  ∀ (i : Instr) (s t : State), i = .enc ∨ i = .dec → s.err = false → exec i s = .next t → t.err = true →
    t = { s with
      pending := none, done := true, err := true, errCode := t.errCode, errToken := t.errToken,
      errAddr := t.errAddr, outLen := 0, uninitRead := t.uninitRead, freeCount := t.freeCount }

/-- R150: which codes a command may report: every raise is one of the codes the table gives the command. -/
def Obligations.CommandsRaiseTheirOwnCodes : Prop :=
  ∀ (i : Instr) (s t : State), s.err = false → exec i s = .next t → t.err = true →
    (∃ a b, i = .ext a b ∧ t.errCode = .bounds) ∨
    (i = .w2i ∧ (t.errCode = .lexical ∨ t.errCode = .unknownWord)) ∨
    (i = .decb ∧ t.errCode = .checksum) ∨
    (i = .enc ∧ t.errCode = .range) ∨
    (i = .dec ∧ (t.errCode = .range ∨ t.errCode = .structural ∨ t.errCode = .lexical ∨
      t.errCode = .unknownWord ∨ t.errCode = .checksum))

/-- 43_encoder.md R108, 44_decoder.md R123, 10_state.md R34(a): ENC and DEC read none of BLK, IDX, RES, WCHR, WLEN and the
old OUT_LEN, and carry them (OUT_LEN apart) through unchanged. -/
def Obligations.BufferCommandsIgnoreTheBlockRegisters : Prop :=
  ∀ (i : Instr) (s t : State) (b : Block) (x : Indices) (r w n o : Word), i = .enc ∨ i = .dec →
    exec i s = .next t →
    t.blk = s.blk ∧ t.idx = s.idx ∧ t.res = s.res ∧ t.wchr = s.wchr ∧ t.wlen = s.wlen ∧
    exec i { s with blk := b, idx := x, res := r, wchr := w, wlen := n, outLen := o } =
      .next { t with blk := b, idx := x, res := r, wchr := w, wlen := n }

/-- 70_reset_and_hazards.md R171: ENC and DEC set UNINIT_READ exactly when they read a source range that holds an
unwritten byte, and a host read of an unwritten byte sets it and returns some value, of which nothing is said. That the
machine goes on after the mark is log 5 (DESIGN CHOICE). -/
def Obligations.UnwrittenSourceSetsTheMark : Prop :=
  ∀ s : State,
    (∃ t : State, exec .enc s = .next t ∧ t.uninitRead =
      (s.uninitRead ||
        (decide (s.srcAddr.toNat + s.srcLen.toNat ≤ s.cfg.dmemSize) && !allWritten s.encSource))) ∧
    (∃ t : State, exec .dec s = .next t ∧ t.uninitRead =
      (s.uninitRead ||
        (decide (s.srcAddr.toNat + s.srcLen.toNat ≤ s.cfg.tmemSize) && !allWritten s.decSource))) ∧
    ∀ a : Nat, s.locked = false → windowsApart s.cfg = true →
      (a < s.cfg.dmemSize → s.dmem.read? a = none →
        ∃ v : Byte, busReadByte (s.cfg.dmemBase + a) s = .next { s with
          uninitRead := true, freeCount := s.freeCount + 1, readLog := s.readLog ++ [v.setWidth 32] }) ∧
      (a < s.cfg.tmemSize → s.tmem.read? a = none →
        ∃ v : Byte, busReadByte (s.cfg.tmemBase + a) s = .next { s with
          uninitRead := true, freeCount := s.freeCount + 1, readLog := s.readLog ++ [v.setWidth 32] })

/-! ### The HOST's turn -/

/-- 00_scope.md R3, 20_memory.md R48(a), 30_encoding.md R64, 70_reset_and_hazards.md R178: where it is the HOST's turn the
step is its next action, and that action is the access it names. Whose turn it is, and the HOST as a list of actions, are
the model's (logs 7 and 8, DESIGN CHOICE). -/
def Obligations.HostTakesItsNextAction : Prop :=
  (∀ (s : State) (op : HostOp) (rest : List HostOp), s.refused = false → s.inputs = op :: rest →
    (s.pending = none → step s = hostTurn op rest s) ∧
    (∀ (w : Word) (d : Nat), s.pending = some w → s.delay = d + 1 →
      step s = hostTurn op rest { s with delay := d })) ∧
  (∀ s : State, s.refused = false → s.pending = none → s.inputs = [] → step s = .next s) ∧
  ∀ (s : State) (rest : List HostOp) (addr bytes : Nat) (v : Word) (b : Byte),
    hostTurn (.readWord addr) rest s = busReadWord addr { s with inputs := rest } ∧
    hostTurn (.writeWord addr v) rest s = busWriteWord addr v { s with inputs := rest } ∧
    hostTurn (.readByte addr) rest s = busReadByte addr { s with inputs := rest } ∧
    hostTurn (.writeByte addr b) rest s = busWriteByte addr b { s with inputs := rest } ∧
    hostTurn (.otherAccess addr bytes) rest s = busOtherAccess addr bytes { s with inputs := rest } ∧
    hostTurn .poll rest s = busReadWord (s.cfg.regBase + 0x04)
      { s with inputs := if s.pending.isSome then .poll :: rest else rest }
end

