-- ==== Sys2Proof/Laws/BitView.lean ====
section
/-! SUPPORT. The bit-extraction unit: stream bits and fields as arithmetic on the big-endian value, and what setting or
flipping one stream bit does. -/

namespace Sys2Proof.Laws

open Sys2Proof.Machine

/-! ### The big-endian value -/

theorem foldl_bigEndian (buf : List Byte) : ∀ acc : Nat,
    buf.foldl (fun acc b => 2 ^ 8 * acc + b.toNat) acc = acc * 2 ^ (8 * buf.length) + bigEndian buf := by
  induction buf with
  | nil => intro acc; simp [bigEndian]
  | cons c buf ih =>
    intro acc
    have e : bigEndian (c :: buf) = (2 ^ 8 * 0 + c.toNat) * 2 ^ (8 * buf.length) + bigEndian buf := ih _
    rw [List.foldl_cons, ih, e, List.length_cons, Nat.mul_add, pow_add]
    ring

@[simp] theorem bigEndian_nil : bigEndian [] = 0 := rfl

theorem bigEndian_cons (c : Byte) (buf : List Byte) :
    bigEndian (c :: buf) = c.toNat * 2 ^ (8 * buf.length) + bigEndian buf := by
  have e : bigEndian (c :: buf) = (2 ^ 8 * 0 + c.toNat) * 2 ^ (8 * buf.length) + bigEndian buf :=
    foldl_bigEndian buf _
  rw [e, Nat.mul_zero, Nat.zero_add]

theorem bigEndian_lt (buf : List Byte) : bigEndian buf < 2 ^ (8 * buf.length) := by
  induction buf with
  | nil => simp
  | cons c buf ih =>
    have e : 2 ^ (8 * (c :: buf).length) = 256 * 2 ^ (8 * buf.length) := by
      rw [List.length_cons, Nat.mul_add, pow_add]; ring
    have h : (c.toNat + 1) * 2 ^ (8 * buf.length) ≤ 256 * 2 ^ (8 * buf.length) :=
      Nat.mul_le_mul_right _ c.isLt
    rw [bigEndian_cons, e]
    rw [Nat.add_mul] at h
    omega

theorem bigEndian_append (a b : List Byte) :
    bigEndian (a ++ b) = bigEndian a * 2 ^ (8 * b.length) + bigEndian b := by
  rw [← foldl_bigEndian b (bigEndian a), bigEndian, List.foldl_append]; rfl

/-! ### Stream bits -/

theorem sbit_lt_two (buf : List Byte) (b : Nat) : sbit buf b < 2 := Nat.mod_lt _ (by decide)

/-- Stream bit `b` is bit `8n-1-b` of the big-endian value (20_memory.md R37). -/
theorem sbit_eq (buf : List Byte) : ∀ b : Nat, b < 8 * buf.length →
    sbit buf b = bigEndian buf / 2 ^ (8 * buf.length - 1 - b) % 2 := by
  induction buf with
  | nil => intro b h; simp at h
  | cons c buf ih =>
    intro b h
    rw [List.length_cons] at h
    have hlt := bigEndian_lt buf
    rw [bigEndian_cons, List.length_cons]
    by_cases hb : b < 8
    · have e1 : 8 * (buf.length + 1) - 1 - b = 8 * buf.length + (7 - b) := by omega
      have e2 : b / 8 = 0 := by omega
      have e3 : b % 8 = b := by omega
      rw [e1, pow_add, ← Nat.div_div_eq_div_mul, Nat.mul_comm c.toNat, Nat.mul_add_div (by positivity),
        Nat.div_eq_of_lt hlt]
      simp [sbit, e2, e3]
    · have hr : b - 8 < 8 * buf.length := by omega
      have e0 : 8 * (buf.length + 1) - 1 - b = 8 * buf.length - 1 - (b - 8) := by omega
      have e1 : sbit (c :: buf) b = sbit buf (b - 8) := by
        have : b / 8 = (b - 8) / 8 + 1 := by omega
        have h8 : b % 8 = (b - 8) % 8 := by omega
        simp [sbit, this, h8]
      have e2 : 2 ^ (8 * buf.length) =
          2 ^ (8 * buf.length - 1 - (b - 8)) * (2 * 2 ^ (b - 8)) := by
        rw [← pow_succ', ← pow_add]; congr 1; omega
      rw [e1, ih _ hr, e0, e2, ← Nat.mul_assoc, Nat.mul_comm c.toNat, Nat.mul_assoc, Nat.mul_add_div (by positivity)]
      have : c.toNat * (2 * 2 ^ (b - 8)) = 2 * (c.toNat * 2 ^ (b - 8)) := by ring
      rw [this]; omega

/-! ### Fields -/

@[simp] theorem extract_zero (buf : List Byte) (start : Nat) : extract buf start 0 = 0 := rfl

theorem extract_succ (buf : List Byte) (start len : Nat) :
    extract buf start (len + 1) = 2 * extract buf start len + sbit buf (start + len) := rfl

/-- 40_bitview.md R71(a). -/
theorem extract_lt (buf : List Byte) (start len : Nat) : extract buf start len < 2 ^ len := by
  induction len with
  | zero => simp
  | succ len ih =>
    have := sbit_lt_two buf (start + len)
    rw [extract_succ, pow_succ]; omega

/-- A field whose bits are those of `v` is `v`, taken to the field's width. -/
theorem extract_of_bits {buf : List Byte} {start v : Nat} : ∀ {len : Nat},
    (∀ k < len, sbit buf (start + k) = v / 2 ^ (len - 1 - k) % 2) → extract buf start len = v % 2 ^ len := by
  intro len
  induction len generalizing v with
  | zero => intro _; simp [Nat.mod_one]
  | succ len ih =>
    intro h
    have hl : extract buf start len = v / 2 % 2 ^ len := by
      apply ih
      intro k hk
      rw [h k (by omega), Nat.div_div_eq_div_mul, ← pow_succ']
      congr 3; omega
    have h0 := h len (by omega)
    simp only [Nat.add_sub_cancel, Nat.sub_self, pow_zero, Nat.div_one] at h0
    rw [extract_succ, hl, h0, pow_succ', Nat.mod_mul]
    ring

/-- 40_bitview.md R71(c). -/
theorem extract_eq (buf : List Byte) (start len : Nat) (h : start + len ≤ 8 * buf.length) :
    extract buf start len = bigEndian buf / 2 ^ (8 * buf.length - start - len) % 2 ^ len := by
  apply extract_of_bits
  intro k hk
  rw [sbit_eq _ _ (by omega), Nat.div_div_eq_div_mul, ← pow_add]
  congr 3; omega

/-- Fields depend on the stream bits alone. -/
theorem extract_congr {p q : List Byte} {start len : Nat} (h : ∀ k < len, sbit p (start + k) = sbit q (start + k)) :
    extract p start len = extract q start len := by
  induction len with
  | zero => rfl
  | succ len ih => rw [extract_succ, extract_succ, ih fun k hk => h k (by omega), h len (by omega)]

theorem extract_two (buf : List Byte) (start : Nat) :
    extract buf start 2 = 2 * sbit buf start + sbit buf (start + 1) := by
  simp only [extract_succ, extract_zero, Nat.add_zero]; ring

/-! ### One stream bit set or flipped -/

/-- Bit `i` of a byte as a number. -/
theorem byte_bit (x : Byte) (i : Nat) : x.toNat / 2 ^ i % 2 = (x.getLsbD i).toNat := by
  rw [← BitVec.testBit_toNat, Nat.testBit_eq_decide_div_mod_eq]
  rcases Nat.mod_two_eq_zero_or_one (x.toNat / 2 ^ i) with h | h <;> simp [h]

theorem sbit_set (p : List Byte) (i : Nat) (x : Byte) (c : Nat) (h : i < p.length) :
    sbit (p.set i x) c = if c / 8 = i then x.toNat / 2 ^ (7 - c % 8) % 2 else sbit p c := by
  by_cases e : c / 8 = i
  · subst e; simp [sbit, List.getD_eq_getElem?_getD, h]
  · simp [sbit, List.getD_eq_getElem?_getD, e, Ne.symm e]

theorem getLsbD_bitMask (i j : Nat) (hi : i < 8) (hj : j < 8) :
    (BitVec.ofNat 8 (2 ^ i)).getLsbD j = decide (j = i) := by
  have : ∀ i : Fin 8, ∀ j : Fin 8, (BitVec.ofNat 8 (2 ^ i.val)).getLsbD j.val = decide (j.val = i.val) := by decide
  exact this ⟨i, hi⟩ ⟨j, hj⟩

theorem sbit_orBit (p : List Byte) (b c : Nat) (h : b < 8 * p.length) :
    sbit (orBit p b) c = if c = b then 1 else sbit p c := by
  rw [orBit, sbit_set _ _ _ _ (by omega)]
  by_cases e : c / 8 = b / 8
  · rw [if_pos e, byte_bit, BitVec.getLsbD_or, getLsbD_bitMask _ _ (by omega) (by omega)]
    by_cases e2 : c = b
    · simp [e2]
    · have : ¬ (7 - c % 8 = 7 - b % 8) := by omega
      simp [e2, this, sbit, e, byte_bit]
  · have : c ≠ b := fun h => e (by rw [h])
    rw [if_neg e, if_neg this]

theorem sbit_flipBit (p : List Byte) (b c : Nat) (h : b < 8 * p.length) :
    sbit (flipBit p b) c = if c = b then 1 - sbit p c else sbit p c := by
  rw [flipBit, sbit_set _ _ _ _ (by omega)]
  by_cases e : c / 8 = b / 8
  · rw [if_pos e, byte_bit, BitVec.getLsbD_xor, getLsbD_bitMask _ _ (by omega) (by omega)]
    by_cases e2 : c = b
    · subst e2
      simp only [decide_true, Bool.xor_true, if_true, sbit, byte_bit]
      cases (p.getD (c / 8) 0).getLsbD (7 - c % 8) <;> rfl
    · have : ¬ (7 - c % 8 = 7 - b % 8) := by omega
      simp [e2, this, sbit, e, byte_bit]
  · have : c ≠ b := fun h => e (by rw [h])
    rw [if_neg e, if_neg this]

@[simp] theorem length_orBit (p : List Byte) (b : Nat) : (orBit p b).length = p.length := by simp [orBit]

@[simp] theorem length_flipBit (p : List Byte) (b : Nat) : (flipBit p b).length = p.length := by simp [flipBit]

end Sys2Proof.Laws
end

