-- ==== Sys2Proof/Laws/Block.lean ====
section
/-! SUPPORT. The checksum, the six index fields of a packed block, and concatenation. -/

namespace Sys2Proof.Laws

open Sys2Proof.Machine

/-! ### Checksum -/

theorem pairField_eq (p : List Byte) (g : Nat) : pairField p g = 2 * sbit p (2 * g) + sbit p (2 * g + 1) :=
  extract_two p (2 * g)

theorem checksumOfGroups_congr {p q : List Byte} : ∀ {n : Nat}, (∀ c < 2 * n, sbit p c = sbit q c) →
    checksumOfGroups p n = checksumOfGroups q n := by
  intro n
  induction n with
  | zero => intro _; rfl
  | succ n ih =>
    intro h
    rw [checksumOfGroups, checksumOfGroups, ih fun c hc => h c (by omega), pairField_eq, pairField_eq,
      h _ (by omega), h _ (by omega)]

/-- 41_parity.md R81(a). -/
theorem checksum_lt (p : List Byte) : checksum p < 4 := Nat.mod_lt _ (by decide)

/-- 41_parity.md R81(b): only the first 64 stream bits count. -/
theorem checksum_congr {p q : List Byte} (h : ∀ c < 64, sbit p c = sbit q c) : checksum p = checksum q :=
  checksumOfGroups_congr h

theorem sbit_take (p : List Byte) (n c : Nat) (h : c < 8 * n) : sbit (p.take n) c = sbit p c := by
  have : c / 8 < n := by omega
  simp [sbit, List.getD_eq_getElem?_getD, this]

theorem sbit_append (p q : List Byte) (c : Nat) (h : c < 8 * p.length) : sbit (p ++ q) c = sbit p c := by
  have : c / 8 < p.length := by omega
  simp [sbit, List.getD_eq_getElem?_getD, List.getElem?_append_left this]

theorem checksum_take_eight (p : List Byte) : checksum (p.take 8) = checksum p :=
  checksum_congr fun c hc => sbit_take p 8 c (by omega)

theorem checksum_append {d : List Byte} (h : d.length = 8) (q : List Byte) : checksum (d ++ q) = checksum d :=
  checksum_congr fun c hc => sbit_append d q c (by omega)

/-! ### Concatenation -/

@[simp] theorem length_placeField (p : List Byte) (j v : Nat) : (placeField p j v).length = p.length := by
  suffices h : ∀ (l : List Nat) (q : List Byte),
      (l.foldl (fun q k => if bitField v (10 - k) (10 - k) = 1 then orBit q (11 * j + k) else q) q).length =
        q.length from h _ _
  intro l
  induction l with
  | nil => intro q; rfl
  | cons k l ih =>
    intro q
    rw [List.foldl_cons, ih]
    split <;> simp

/-- Setting the first `n` bits of a field. -/
theorem sbit_placeBits (p : List Byte) (j v c : Nat) (h : 11 * j + 11 ≤ 8 * p.length) : ∀ n ≤ 11,
    sbit ((List.range n).foldl
      (fun q k => if bitField v (10 - k) (10 - k) = 1 then orBit q (11 * j + k) else q) p) c =
      if 11 * j ≤ c ∧ c < 11 * j + n ∧ v / 2 ^ (10 - (c - 11 * j)) % 2 = 1 then 1 else sbit p c := by
  have hlen : ∀ n, ((List.range n).foldl
      (fun q k => if bitField v (10 - k) (10 - k) = 1 then orBit q (11 * j + k) else q) p).length = p.length := by
    intro n
    induction n with
    | zero => rfl
    | succ n ih => rw [List.range_succ, List.foldl_append]; simp only [List.foldl_cons, List.foldl_nil]; split <;> simp [ih]
  intro n
  induction n with
  | zero => intro _; rw [if_neg (by omega)]; rfl
  | succ n ih =>
    intro hn
    have ih := ih (by omega)
    have hl := hlen n
    have hb : bitField v (10 - n) (10 - n) = v / 2 ^ (10 - n) % 2 := by simp [bitField]
    rw [List.range_succ, List.foldl_append]
    simp only [List.foldl_cons, List.foldl_nil, hb]
    by_cases e : c = 11 * j + n
    · subst e
      have e1 : 11 * j + n - 11 * j = n := by omega
      rw [e1] at ih ⊢
      rw [if_neg (by omega)] at ih
      split
      · rename_i hv
        rw [sbit_orBit _ _ _ (by rw [hl]; omega), if_pos rfl, if_pos ⟨by omega, by omega, hv⟩]
      · rename_i hv
        rw [ih, if_neg (by tauto)]
    · have hc : sbit (if v / 2 ^ (10 - n) % 2 = 1 then
          orBit ((List.range n).foldl
            (fun q k => if bitField v (10 - k) (10 - k) = 1 then orBit q (11 * j + k) else q) p) (11 * j + n)
          else (List.range n).foldl
            (fun q k => if bitField v (10 - k) (10 - k) = 1 then orBit q (11 * j + k) else q) p) c =
          sbit ((List.range n).foldl
            (fun q k => if bitField v (10 - k) (10 - k) = 1 then orBit q (11 * j + k) else q) p) c := by
        split
        · rw [sbit_orBit _ _ _ (by rw [hl]; omega), if_neg e]
        · rfl
      rw [hc, ih]
      apply if_congr _ rfl rfl
      constructor <;> rintro ⟨h1, h2, h3⟩ <;> exact ⟨h1, by omega, h3⟩

theorem sbit_placeField (p : List Byte) (j v c : Nat) (h : 11 * j + 11 ≤ 8 * p.length) :
    sbit (placeField p j v) c =
      if 11 * j ≤ c ∧ c < 11 * j + 11 ∧ v / 2 ^ (10 - (c - 11 * j)) % 2 = 1 then 1 else sbit p c :=
  sbit_placeBits p j v c h 11 (by decide)

theorem length_placeFields (idx : List Nat) (n : Nat) (p : List Byte) :
    ((List.range n).foldl (fun p j => placeField p j (idx.getD j 0)) p).length = p.length := by
  induction n with
  | zero => rfl
  | succ n ih => rw [List.range_succ, List.foldl_append, List.foldl_cons, List.foldl_nil, length_placeField, ih]

@[simp] theorem length_concat (idx : List Nat) : (concat idx).length = 9 := by
  rw [concat, length_placeFields]; rfl

theorem sbit_placeFields (idx : List Nat) (c : Nat) : ∀ n ≤ 6,
    sbit ((List.range n).foldl (fun p j => placeField p j (idx.getD j 0)) (List.replicate 9 0)) c =
      if c < 11 * n then (idx.getD (c / 11) 0) / 2 ^ (10 - c % 11) % 2 else 0 := by
  intro n
  induction n with
  | zero =>
    intro _
    rw [if_neg (by omega)]
    simp only [List.range_zero, List.foldl_nil, sbit, List.getD_eq_getElem?_getD, List.getElem?_replicate]
    split <;> simp
  | succ n ih =>
    intro hn
    have ih := ih (by omega)
    rw [List.range_succ, List.foldl_append]
    simp only [List.foldl_cons, List.foldl_nil]
    rw [sbit_placeField _ _ _ _ (by rw [length_placeFields, List.length_replicate]; omega), ih]
    by_cases h1 : 11 * n ≤ c ∧ c < 11 * n + 11
    · have e1 : c / 11 = n := by omega
      have e2 : c - 11 * n = c % 11 := by omega
      rw [e1, e2, if_neg (show ¬ c < 11 * n by omega), if_pos (show c < 11 * (n + 1) by omega)]
      rcases Nat.mod_two_eq_zero_or_one (idx.getD n 0 / 2 ^ (10 - c % 11)) with h | h <;> rw [h] <;> simp [h1]
    · rw [if_neg (by tauto)]
      by_cases h2 : c < 11 * n
      · rw [if_pos h2, if_pos (by omega)]
      · rw [if_neg h2, if_neg (by omega)]

/-- The stream bits of a concatenated block (44_decoder.md R115). -/
theorem sbit_concat (idx : List Nat) (c : Nat) :
    sbit (concat idx) c = if c < 66 then (idx.getD (c / 11) 0) / 2 ^ (10 - c % 11) % 2 else 0 :=
  sbit_placeFields idx c 6 (by decide)

/-- 44_decoder.md R115(c): the fields of a concatenated block are its indices. -/
theorem indexField_concat (idx : List Nat) (j : Nat) (hj : j < 6) :
    indexField (concat idx) j = idx.getD j 0 % 2 ^ 11 := by
  apply extract_of_bits
  intro k hk
  have e1 : (11 * j + k) / 11 = j := by omega
  have e2 : (11 * j + k) % 11 = k := by omega
  rw [sbit_concat, if_pos (by omega), e1, e2]

/-- 44_decoder.md R115(d) with R116: the checksum field of a concatenated block. -/
theorem checksumField_concat (idx : List Nat) : checksumField (concat idx) = idx.getD 5 0 % 4 := by
  apply extract_of_bits
  intro k hk
  have e1 : (64 + k) / 11 = 5 := by omega
  have e2 : 10 - (64 + k) % 11 = 2 - 1 - k := by omega
  rw [sbit_concat, if_pos (by omega), e1, e2]

/-- The six padding bits of a concatenated block are 0. -/
theorem padding_concat (idx : List Nat) : extract (concat idx) 66 6 = 0 := by
  have h : extract (concat idx) 66 6 = 0 % 2 ^ 6 := by
    apply extract_of_bits
    intro k hk
    rw [sbit_concat, if_neg (by omega)]; simp
  simpa using h

/-- Two byte lists of one length with the same stream bits are equal. -/
theorem eq_of_sbit {p q : List Byte} (hl : p.length = q.length) (h : ∀ c < 8 * p.length, sbit p c = sbit q c) :
    p = q := by
  apply List.ext_getElem hl
  intro i hp hq
  apply BitVec.eq_of_getLsbD_eq
  intro b hb
  have := h (8 * i + (7 - b)) (by omega)
  have e1 : (8 * i + (7 - b)) / 8 = i := by omega
  have e2 : 7 - (8 * i + (7 - b)) % 8 = b := by omega
  simp only [sbit, e1, e2, List.getD_eq_getElem?_getD, List.getElem?_eq_getElem hp, List.getElem?_eq_getElem hq,
    Option.getD_some, byte_bit] at this
  cases hx : p[i].getLsbD b <;> cases hy : q[i].getLsbD b <;> simp [hx, hy] at this <;> rfl

/-- The stream bits of a field, from the field. -/
theorem sbit_of_indexField (p : List Byte) (c : Nat) (h : 8 * p.length ≥ 11 * (c / 11) + 11) :
    sbit p c = indexField p (c / 11) / 2 ^ (10 - c % 11) % 2 := by
  rw [indexField, extract_eq _ _ _ (by omega), sbit_eq _ _ (by omega)]
  have e : 2 ^ 11 = 2 ^ (10 - c % 11) * (2 * 2 ^ (c % 11)) := by
    rw [← pow_succ', ← pow_add]; congr 1; omega
  rw [e, Nat.mod_mul_right_div_self, Nat.mod_mul_right_mod, Nat.div_div_eq_div_mul, ← pow_add]
  congr 3; omega

/-- 44_decoder.md R115(e): a nine-byte block whose padding is 0 is the concatenation of its fields. -/
theorem concat_sliceBlock {p : List Byte} (hl : p.length = 9) (hpad : ∀ c, 66 ≤ c → c < 72 → sbit p c = 0) :
    concat (sliceBlock p) = p := by
  apply eq_of_sbit (by simp [hl])
  intro c hc
  simp only [length_concat] at hc
  rw [sbit_concat]
  split
  · rw [sbit_of_indexField p c (by omega)]
    congr 2
    have : c / 11 < 6 := by omega
    interval_cases c / 11 <;> rfl
  · rw [hpad c (by omega) (by omega)]

/-- Stream bits of a packed block past the data: the checksum byte's (41_parity.md R84). -/
theorem sbit_packBlock_high {d : List Byte} (hd : d.length = 8) (c : Nat) (h1 : 64 ≤ c) (h2 : c < 72) :
    sbit (packBlock d) c = 64 * checksum d / 2 ^ (71 - c) % 2 := by
  have hlt := checksum_lt d
  have e1 : c / 8 = 8 := by omega
  have e2 : 7 - c % 8 = 71 - c := by omega
  have : (checksumByte (checksum d)).toNat = 64 * checksum d := by
    simp only [checksumByte, BitVec.toNat_ofNat]; omega
  simp only [sbit, packBlock, e1, e2, List.getD_eq_getElem?_getD]
  rw [List.getElem?_append_right (by omega)]
  simp [hd, this]

theorem length_packBlock {d : List Byte} (hd : d.length = 8) : (packBlock d).length = 9 := by simp [packBlock, hd]

/-- 44_decoder.md R115(e) for the blocks the encoder builds. -/
theorem concat_slice_packBlock {d : List Byte} (hd : d.length = 8) :
    concat (sliceBlock (packBlock d)) = packBlock d := by
  apply concat_sliceBlock (length_packBlock hd)
  intro c h1 h2
  have hlt := checksum_lt d
  rw [sbit_packBlock_high hd c (by omega) h2]
  have : c = 66 ∨ c = 67 ∨ c = 68 ∨ c = 69 ∨ c = 70 ∨ c = 71 := by omega
  rcases this with rfl | rfl | rfl | rfl | rfl | rfl <;> norm_num <;> omega

/-- "Every block built by 43_encoder.md rule R100 verifies" (44_decoder.md R116). -/
theorem verifies_packBlock {d : List Byte} (hd : d.length = 8) : verifies (packBlock d) = true := by
  have hlt := checksum_lt d
  have h : checksumField (packBlock d) = checksum d % 2 ^ 2 := by
    apply extract_of_bits
    intro k hk
    rw [sbit_packBlock_high hd _ (by omega) (by omega)]
    have : k = 0 ∨ k = 1 := by omega
    rcases this with rfl | rfl
    · norm_num; omega
    · norm_num
  have h2 : checksum (packBlock d) = checksum d := checksum_append hd _
  simp only [verifies, h, h2, beq_iff_eq]
  omega

/-- Each index is in 0..2047 (43_encoder.md R101). -/
theorem sliceBlock_lt {p : List Byte} {i : Nat} (h : i ∈ sliceBlock p) : i < 2048 := by
  simp only [sliceBlock, List.mem_cons, List.not_mem_nil, or_false] at h
  rcases h with rfl | rfl | rfl | rfl | rfl | rfl <;> exact extract_lt _ _ 11

@[simp] theorem length_sliceBlock (p : List Byte) : (sliceBlock p).length = 6 := rfl

/-! ### BLK -/

@[simp] theorem length_bytes (b : Block) : b.bytes.length = 9 := rfl

@[simp] theorem ofBytes_bytes (b : Block) : Block.ofBytes b.bytes = b := rfl

theorem bytes_ofBytes {p : List Byte} (h : p.length = 9) : (Block.ofBytes p).bytes = p := by
  match p, h with
  | [_, _, _, _, _, _, _, _, _], _ => rfl

/-- Byte 8 of BLK does not count in the checksum. -/
theorem checksum_bytes_b8 (b : Block) (x : Byte) : checksum (Block.bytes { b with b8 := x }) = checksum b.bytes := by
  rw [← checksum_take_eight, ← checksum_take_eight b.bytes]; rfl

/-- ENCB's block is the packed block of its data bytes. -/
theorem appendChecksum_bytes (b : Block) : (appendChecksum b).bytes = packBlock (b.bytes.take 8) := by
  simp only [packBlock, checksum_take_eight]; rfl

@[simp] theorem values_getD_lt (x : Indices) (j : Nat) : x.values.getD j 0 < 2048 := by
  obtain ⟨a, b, c, d, e, f⟩ := x
  have := a.isLt; have := b.isLt; have := c.isLt; have := d.isLt; have := e.isLt; have := f.isLt
  match j with
  | 0 | 1 | 2 | 3 | 4 | 5 => simpa [Indices.values]
  | n + 6 => simp [Indices.values]

end Sys2Proof.Laws
end

