-- ==== Sys2Proof/Laws/State.lean ====
section
/-! SUPPORT. One lemma for each field of each shared update of State, so that no proof unfolds a record update. -/

namespace Sys2Proof.Laws

open Sys2Proof.Machine

/-! ### State.complete -/

@[simp] theorem complete_cfg (s : State) : (State.complete s).cfg = s.cfg := rfl
@[simp] theorem complete_pending (s : State) : (State.complete s).pending = none := rfl
@[simp] theorem complete_done (s : State) : (State.complete s).done = true := rfl
@[simp] theorem complete_err (s : State) : (State.complete s).err = s.err := rfl
@[simp] theorem complete_errCode (s : State) : (State.complete s).errCode = s.errCode := rfl
@[simp] theorem complete_errToken (s : State) : (State.complete s).errToken = s.errToken := rfl
@[simp] theorem complete_errAddr (s : State) : (State.complete s).errAddr = s.errAddr := rfl
@[simp] theorem complete_res (s : State) : (State.complete s).res = s.res := rfl
@[simp] theorem complete_srcAddr (s : State) : (State.complete s).srcAddr = s.srcAddr := rfl
@[simp] theorem complete_srcLen (s : State) : (State.complete s).srcLen = s.srcLen := rfl
@[simp] theorem complete_dstAddr (s : State) : (State.complete s).dstAddr = s.dstAddr := rfl
@[simp] theorem complete_outLen (s : State) : (State.complete s).outLen = s.outLen := rfl
@[simp] theorem complete_blk (s : State) : (State.complete s).blk = s.blk := rfl
@[simp] theorem complete_wchr (s : State) : (State.complete s).wchr = s.wchr := rfl
@[simp] theorem complete_wlen (s : State) : (State.complete s).wlen = s.wlen := rfl
@[simp] theorem complete_idx (s : State) : (State.complete s).idx = s.idx := rfl
@[simp] theorem complete_dmem (s : State) : (State.complete s).dmem = s.dmem := rfl
@[simp] theorem complete_tmem (s : State) : (State.complete s).tmem = s.tmem := rfl
@[simp] theorem complete_hostProtocol (s : State) : (State.complete s).hostProtocol = s.hostProtocol := rfl
@[simp] theorem complete_uninitRead (s : State) : (State.complete s).uninitRead = s.uninitRead := rfl
@[simp] theorem complete_refused (s : State) : (State.complete s).refused = s.refused := rfl
@[simp] theorem complete_inputs (s : State) : (State.complete s).inputs = s.inputs := rfl
@[simp] theorem complete_delay (s : State) : (State.complete s).delay = s.delay := rfl
@[simp] theorem complete_schedule (s : State) : (State.complete s).schedule = s.schedule := rfl
@[simp] theorem complete_mustPoll (s : State) : (State.complete s).mustPoll = s.mustPoll := rfl
@[simp] theorem complete_readLog (s : State) : (State.complete s).readLog = s.readLog := rfl
@[simp] theorem complete_freeCount (s : State) : (State.complete s).freeCount = s.freeCount := rfl

/-! ### State.raiseErr -/

@[simp] theorem raiseErr_cfg (s : State) (e : ErrInfo) : (State.raiseErr s e).cfg = s.cfg := rfl
@[simp] theorem raiseErr_pending (s : State) (e : ErrInfo) : (State.raiseErr s e).pending = s.pending := rfl
@[simp] theorem raiseErr_done (s : State) (e : ErrInfo) : (State.raiseErr s e).done = s.done := rfl
@[simp] theorem raiseErr_err (s : State) (e : ErrInfo) : (State.raiseErr s e).err = true := rfl
@[simp] theorem raiseErr_errCode (s : State) (e : ErrInfo) : (State.raiseErr s e).errCode = e.code := rfl
@[simp] theorem raiseErr_errToken (s : State) (e : ErrInfo) : (State.raiseErr s e).errToken = BitVec.ofNat 32 e.tok := rfl
@[simp] theorem raiseErr_errAddr (s : State) (e : ErrInfo) : (State.raiseErr s e).errAddr = BitVec.ofNat 32 e.addr := rfl
@[simp] theorem raiseErr_res (s : State) (e : ErrInfo) : (State.raiseErr s e).res = s.res := rfl
@[simp] theorem raiseErr_srcAddr (s : State) (e : ErrInfo) : (State.raiseErr s e).srcAddr = s.srcAddr := rfl
@[simp] theorem raiseErr_srcLen (s : State) (e : ErrInfo) : (State.raiseErr s e).srcLen = s.srcLen := rfl
@[simp] theorem raiseErr_dstAddr (s : State) (e : ErrInfo) : (State.raiseErr s e).dstAddr = s.dstAddr := rfl
@[simp] theorem raiseErr_outLen (s : State) (e : ErrInfo) : (State.raiseErr s e).outLen = s.outLen := rfl
@[simp] theorem raiseErr_blk (s : State) (e : ErrInfo) : (State.raiseErr s e).blk = s.blk := rfl
@[simp] theorem raiseErr_wchr (s : State) (e : ErrInfo) : (State.raiseErr s e).wchr = s.wchr := rfl
@[simp] theorem raiseErr_wlen (s : State) (e : ErrInfo) : (State.raiseErr s e).wlen = s.wlen := rfl
@[simp] theorem raiseErr_idx (s : State) (e : ErrInfo) : (State.raiseErr s e).idx = s.idx := rfl
@[simp] theorem raiseErr_dmem (s : State) (e : ErrInfo) : (State.raiseErr s e).dmem = s.dmem := rfl
@[simp] theorem raiseErr_tmem (s : State) (e : ErrInfo) : (State.raiseErr s e).tmem = s.tmem := rfl
@[simp] theorem raiseErr_hostProtocol (s : State) (e : ErrInfo) : (State.raiseErr s e).hostProtocol = s.hostProtocol := rfl
@[simp] theorem raiseErr_uninitRead (s : State) (e : ErrInfo) : (State.raiseErr s e).uninitRead = s.uninitRead := rfl
@[simp] theorem raiseErr_refused (s : State) (e : ErrInfo) : (State.raiseErr s e).refused = s.refused := rfl
@[simp] theorem raiseErr_inputs (s : State) (e : ErrInfo) : (State.raiseErr s e).inputs = s.inputs := rfl
@[simp] theorem raiseErr_delay (s : State) (e : ErrInfo) : (State.raiseErr s e).delay = s.delay := rfl
@[simp] theorem raiseErr_schedule (s : State) (e : ErrInfo) : (State.raiseErr s e).schedule = s.schedule := rfl
@[simp] theorem raiseErr_mustPoll (s : State) (e : ErrInfo) : (State.raiseErr s e).mustPoll = s.mustPoll := rfl
@[simp] theorem raiseErr_readLog (s : State) (e : ErrInfo) : (State.raiseErr s e).readLog = s.readLog := rfl
@[simp] theorem raiseErr_freeCount (s : State) (e : ErrInfo) : (State.raiseErr s e).freeCount = s.freeCount := rfl

/-! ### State.noteReads -/

@[simp] theorem noteReads_cfg (s : State) (l : List (Option Byte)) : (State.noteReads s l).cfg = s.cfg := rfl
@[simp] theorem noteReads_pending (s : State) (l : List (Option Byte)) : (State.noteReads s l).pending = s.pending := rfl
@[simp] theorem noteReads_done (s : State) (l : List (Option Byte)) : (State.noteReads s l).done = s.done := rfl
@[simp] theorem noteReads_err (s : State) (l : List (Option Byte)) : (State.noteReads s l).err = s.err := rfl
@[simp] theorem noteReads_errCode (s : State) (l : List (Option Byte)) : (State.noteReads s l).errCode = s.errCode := rfl
@[simp] theorem noteReads_errToken (s : State) (l : List (Option Byte)) : (State.noteReads s l).errToken = s.errToken := rfl
@[simp] theorem noteReads_errAddr (s : State) (l : List (Option Byte)) : (State.noteReads s l).errAddr = s.errAddr := rfl
@[simp] theorem noteReads_res (s : State) (l : List (Option Byte)) : (State.noteReads s l).res = s.res := rfl
@[simp] theorem noteReads_srcAddr (s : State) (l : List (Option Byte)) : (State.noteReads s l).srcAddr = s.srcAddr := rfl
@[simp] theorem noteReads_srcLen (s : State) (l : List (Option Byte)) : (State.noteReads s l).srcLen = s.srcLen := rfl
@[simp] theorem noteReads_dstAddr (s : State) (l : List (Option Byte)) : (State.noteReads s l).dstAddr = s.dstAddr := rfl
@[simp] theorem noteReads_outLen (s : State) (l : List (Option Byte)) : (State.noteReads s l).outLen = s.outLen := rfl
@[simp] theorem noteReads_blk (s : State) (l : List (Option Byte)) : (State.noteReads s l).blk = s.blk := rfl
@[simp] theorem noteReads_wchr (s : State) (l : List (Option Byte)) : (State.noteReads s l).wchr = s.wchr := rfl
@[simp] theorem noteReads_wlen (s : State) (l : List (Option Byte)) : (State.noteReads s l).wlen = s.wlen := rfl
@[simp] theorem noteReads_idx (s : State) (l : List (Option Byte)) : (State.noteReads s l).idx = s.idx := rfl
@[simp] theorem noteReads_dmem (s : State) (l : List (Option Byte)) : (State.noteReads s l).dmem = s.dmem := rfl
@[simp] theorem noteReads_tmem (s : State) (l : List (Option Byte)) : (State.noteReads s l).tmem = s.tmem := rfl
@[simp] theorem noteReads_hostProtocol (s : State) (l : List (Option Byte)) : (State.noteReads s l).hostProtocol = s.hostProtocol := rfl
@[simp] theorem noteReads_uninitRead (s : State) (l : List (Option Byte)) : (State.noteReads s l).uninitRead = (s.uninitRead || decide (0 < unwrittenIn l)) := rfl
@[simp] theorem noteReads_refused (s : State) (l : List (Option Byte)) : (State.noteReads s l).refused = s.refused := rfl
@[simp] theorem noteReads_inputs (s : State) (l : List (Option Byte)) : (State.noteReads s l).inputs = s.inputs := rfl
@[simp] theorem noteReads_delay (s : State) (l : List (Option Byte)) : (State.noteReads s l).delay = s.delay := rfl
@[simp] theorem noteReads_schedule (s : State) (l : List (Option Byte)) : (State.noteReads s l).schedule = s.schedule := rfl
@[simp] theorem noteReads_mustPoll (s : State) (l : List (Option Byte)) : (State.noteReads s l).mustPoll = s.mustPoll := rfl
@[simp] theorem noteReads_readLog (s : State) (l : List (Option Byte)) : (State.noteReads s l).readLog = s.readLog := rfl
@[simp] theorem noteReads_freeCount (s : State) (l : List (Option Byte)) : (State.noteReads s l).freeCount = s.freeCount + unwrittenIn l := rfl

/-! ### State.issue -/

@[simp] theorem issue_cfg (s : State) (w : Word) : (State.issue s w).cfg = s.cfg := rfl
@[simp] theorem issue_pending (s : State) (w : Word) : (State.issue s w).pending = some w := rfl
@[simp] theorem issue_done (s : State) (w : Word) : (State.issue s w).done = false := rfl
@[simp] theorem issue_err (s : State) (w : Word) : (State.issue s w).err = false := rfl
@[simp] theorem issue_errCode (s : State) (w : Word) : (State.issue s w).errCode = ErrCode.none := rfl
@[simp] theorem issue_errToken (s : State) (w : Word) : (State.issue s w).errToken = 0 := rfl
@[simp] theorem issue_errAddr (s : State) (w : Word) : (State.issue s w).errAddr = 0 := rfl
@[simp] theorem issue_res (s : State) (w : Word) : (State.issue s w).res = s.res := rfl
@[simp] theorem issue_srcAddr (s : State) (w : Word) : (State.issue s w).srcAddr = s.srcAddr := rfl
@[simp] theorem issue_srcLen (s : State) (w : Word) : (State.issue s w).srcLen = s.srcLen := rfl
@[simp] theorem issue_dstAddr (s : State) (w : Word) : (State.issue s w).dstAddr = s.dstAddr := rfl
@[simp] theorem issue_outLen (s : State) (w : Word) : (State.issue s w).outLen = s.outLen := rfl
@[simp] theorem issue_blk (s : State) (w : Word) : (State.issue s w).blk = s.blk := rfl
@[simp] theorem issue_wchr (s : State) (w : Word) : (State.issue s w).wchr = s.wchr := rfl
@[simp] theorem issue_wlen (s : State) (w : Word) : (State.issue s w).wlen = s.wlen := rfl
@[simp] theorem issue_idx (s : State) (w : Word) : (State.issue s w).idx = s.idx := rfl
@[simp] theorem issue_dmem (s : State) (w : Word) : (State.issue s w).dmem = s.dmem := rfl
@[simp] theorem issue_tmem (s : State) (w : Word) : (State.issue s w).tmem = s.tmem := rfl
@[simp] theorem issue_hostProtocol (s : State) (w : Word) : (State.issue s w).hostProtocol = s.hostProtocol := rfl
@[simp] theorem issue_uninitRead (s : State) (w : Word) : (State.issue s w).uninitRead = s.uninitRead := rfl
@[simp] theorem issue_refused (s : State) (w : Word) : (State.issue s w).refused = s.refused := rfl
@[simp] theorem issue_inputs (s : State) (w : Word) : (State.issue s w).inputs = s.inputs := rfl
@[simp] theorem issue_delay (s : State) (w : Word) : (State.issue s w).delay = s.delay := rfl
@[simp] theorem issue_schedule (s : State) (w : Word) : (State.issue s w).schedule = s.schedule := rfl
@[simp] theorem issue_mustPoll (s : State) (w : Word) : (State.issue s w).mustPoll = s.mustPoll := rfl
@[simp] theorem issue_readLog (s : State) (w : Word) : (State.issue s w).readLog = s.readLog := rfl
@[simp] theorem issue_freeCount (s : State) (w : Word) : (State.issue s w).freeCount = s.freeCount := rfl

/-! ### The raise at the end of a command -/

theorem complete_raiseErr (s : State) (e : ErrInfo) : (s.raiseErr e).complete = s.failed e := rfl

@[simp] theorem busy_eq (s : State) : s.busy = s.pending.isSome := rfl

end Sys2Proof.Laws
end

