-- ==== Sys2Proof/Laws/Dictionary.lean ====
section
/-! SUPPORT. The dictionary: what a well-formed one gives, the lookup, and that the test fixture is well formed. -/

namespace Sys2Proof.Laws

open Sys2Proof Sys2Proof.Machine

/-! ### Well-formed configurations -/

theorem configOK_dict {c : Config} (h : configOK c = true) : dictOK c.dict = true := by
  simp only [configOK, Bool.and_eq_true] at h; exact h.1.1

theorem configOK_dmem {c : Config} (h : configOK c = true) : 0 < c.dmemSize ∧ c.dmemSize ≤ 2 ^ 31 := by
  simp only [configOK, sizeOK, Bool.and_eq_true, decide_eq_true_eq] at h; exact h.1.2

theorem configOK_tmem {c : Config} (h : configOK c = true) : 0 < c.tmemSize ∧ c.tmemSize ≤ 2 ^ 31 := by
  simp only [configOK, sizeOK, Bool.and_eq_true, decide_eq_true_eq] at h; exact h.2

theorem dictOK_length {d : List (List Byte)} (h : dictOK d = true) : d.length = 2048 := by
  simp only [dictOK, Bool.and_eq_true, decide_eq_true_eq] at h; exact h.1.1

theorem dictOK_nodup {d : List (List Byte)} (h : dictOK d = true) : (d.map foldWord).Nodup := by
  simp only [dictOK, Bool.and_eq_true, decide_eq_true_eq] at h; exact h.2

theorem dictOK_entry {d : List (List Byte)} (h : dictOK d = true) {e : List Byte} (he : e ∈ d) :
    1 ≤ e.length ∧ e.length ≤ 4 ∧ ∀ c ∈ e, 0x21 ≤ c.toNat ∧ c.toNat ≤ 0x7E := by
  simp only [dictOK, Bool.and_eq_true, List.all_eq_true, entryOK, lexOK, isPrintable, decide_eq_true_eq] at h
  exact ⟨(h.1.2 e he).1.1, (h.1.2 e he).1.2, (h.1.2 e he).2⟩

theorem wordOf_mem {d : List (List Byte)} (h : dictOK d = true) {i : Nat} (hi : i < 2048) : wordOf d i ∈ d := by
  have : i < d.length := by rw [dictOK_length h]; exact hi
  simp [wordOf, List.getD_eq_getElem?_getD, this]

theorem getElem?_wordOf {d : List (List Byte)} (h : dictOK d = true) {i : Nat} (hi : i < 2048) :
    d[i]? = some (wordOf d i) := by
  have : i < d.length := by rw [dictOK_length h]; exact hi
  simp [wordOf, List.getD_eq_getElem?_getD, this]

/-! ### fold -/

@[simp] theorem length_foldWord (t : List Byte) : (foldWord t).length = t.length := by simp [foldWord]

theorem length_of_foldWord {s t : List Byte} (h : foldWord s = foldWord t) : s.length = t.length := by
  rw [← length_foldWord s, h, length_foldWord]

theorem matchesEntry_iff (t e : List Byte) : matchesEntry t e = true ↔ foldWord e = foldWord t := by
  simp only [matchesEntry, Bool.and_eq_true, beq_iff_eq]
  exact ⟨fun h => h.2, fun h => ⟨length_of_foldWord h, h⟩⟩

/-- The lookup sees a token only through `fold`. -/
theorem indexOf_congr {s t : List Byte} (h : foldWord s = foldWord t) (d : List (List Byte)) :
    indexOf d s = indexOf d t := by
  have : matchesEntry s = matchesEntry t := by
    funext e
    rw [Bool.eq_iff_iff, matchesEntry_iff, matchesEntry_iff, h]
  rw [indexOf, indexOf, this]

/-- `fold` maps no code into or out of SEP (44_decoder.md R119). -/
theorem isSep_fold (c : Byte) : isSep (fold c) = isSep c := by
  have : ∀ x : Fin 256, isSep (fold (BitVec.ofFin x)) = isSep (BitVec.ofFin x) := by decide +kernel
  exact this c.toFin

/-- A code a dictionary word holds is no separator. -/
theorem isSep_of_printable {c : Byte} (h : 0x21 ≤ c.toNat) : isSep c = false := by
  have : ∀ x : Fin 256, 0x21 ≤ x.val → isSep (BitVec.ofFin x) = false := by decide +kernel
  exact this c.toFin h

/-! ### Lookup -/

/-- The lookup answers the index of the one matching entry (42_dictionary.md R92). -/
theorem indexOf_eq_of_match {d : List (List Byte)} (h : dictOK d = true) {i : Nat} {e t : List Byte}
    (he : d[i]? = some e) (hf : foldWord e = foldWord t) : indexOf d t = some i := by
  obtain ⟨hi, rfl⟩ := List.getElem?_eq_some_iff.mp he
  rw [indexOf, List.findIdx?_eq_some_iff_getElem]
  refine ⟨hi, (matchesEntry_iff _ _).mpr hf, ?_⟩
  intro j hj hm
  have hd := List.nodup_iff_injective_getElem.mp (dictOK_nodup h)
  have := @hd ⟨j, by simp; omega⟩ ⟨i, by simpa using hi⟩
    (by simp only [List.getElem_map]; rw [hf]; exact (matchesEntry_iff _ _).mp hm)
  simp at this; omega

theorem indexOf_eq_none {d : List (List Byte)} {t : List Byte} (h : ∀ e ∈ d, foldWord e ≠ foldWord t) :
    indexOf d t = none := by
  rw [indexOf, List.findIdx?_eq_none_iff]
  intro e he
  rw [Bool.eq_false_iff, Ne, matchesEntry_iff]
  exact h e he

/-- 42_dictionary.md R93(a). -/
theorem indexOf_wordOf {d : List (List Byte)} (h : dictOK d = true) {i : Nat} (hi : i < 2048) :
    indexOf d (wordOf d i) = some i :=
  indexOf_eq_of_match h (getElem?_wordOf h hi) rfl

/-- An index the lookup answers is an index of the dictionary. -/
theorem indexOf_lt {d : List (List Byte)} {t : List Byte} {i : Nat} (h : indexOf d t = some i) : i < d.length := by
  rw [indexOf, List.findIdx?_eq_some_iff_getElem] at h
  exact h.1

/-! ### The test fixture -/

theorem testWordsFrom_eq (n : Nat) : ∀ i, testWordsFrom n i = (List.range n).map fun k => testWord (i + k) := by
  induction n with
  | zero => intro i; rfl
  | succ n ih =>
    intro i
    rw [testWordsFrom, ih, List.range_succ_eq_map, List.map_cons, List.map_map]
    congr 1
    apply List.map_congr_left
    intro k _
    simp only [Function.comp]; congr 1; omega

/-- The number a folded test word stands for: digit codes back to digits. -/
def numeralValue (t : List Byte) : Nat :=
  t.foldl (fun acc c => acc * 16 + (if c.toNat < 0x41 then c.toNat - 0x30 else c.toNat - 0x37)) 0

theorem testFixture_entries :
    ((List.range 2048).all fun i =>
      entryOK (testWord i) && numeralValue (foldWord (testWord i)) == i) = true := by decide +kernel

theorem testFixture_dictOK : dictOK Config.testFixture.dict = true := by
  have h : Config.testFixture.dict = (List.range 2048).map testWord := by
    simp only [Config.testFixture, testWordsFrom_eq, Nat.zero_add]
  have hall := testFixture_entries
  simp only [List.all_eq_true, Bool.and_eq_true, beq_iff_eq] at hall
  rw [h]
  simp only [dictOK, Bool.and_eq_true, decide_eq_true_eq, List.length_map, List.length_range, true_and,
    List.all_eq_true, List.mem_map]
  refine ⟨?_, ?_⟩
  · rintro _ ⟨i, hi, rfl⟩
    exact (hall i hi).1
  · rw [List.map_map]
    apply List.Nodup.of_map numeralValue
    rw [List.map_map]
    have : (List.range 2048).map (numeralValue ∘ foldWord ∘ testWord) = (List.range 2048).map id :=
      List.map_congr_left fun i hi => (hall i hi).2
    rw [this, List.map_id]
    exact List.nodup_range

/-- The test fixture is a configuration the spec allows ("TD is well formed", 95_test_vectors.md section 0). -/
theorem testFixture_ok : configOK Config.testFixture = true := by
  simp only [configOK, testFixture_dictOK, Bool.true_and]; decide

/-- State.reset is the state after power-on with the test fixture. -/
theorem reset_eq_powerOn : State.reset = State.powerOn Config.testFixture := by
  simp only [State.powerOn, testFixture_ok]; rfl

end Sys2Proof.Laws
end

