-- ==== Sys2Proof/Laws/Memory.lean ====
section
/-! SUPPORT. The buffers: read after write, what a write leaves alone, and that every operation keeps the canonical
form. -/

namespace Sys2Proof.Laws

open Sys2Proof.Machine

theorem read?_write (m : Memory) (a b : Nat) (v : Byte) :
    (m.write a v).read? b = if b = a then some v else m.read? b := by
  induction m with
  | nil => simp only [Memory.write, Memory.read?]
  | cons c m ih =>
    obtain ⟨x, w⟩ := c
    simp only [Memory.write]
    split
    · simp only [Memory.read?]
    · split
      · subst_vars; simp only [Memory.read?]; grind
      · simp only [Memory.read?, ih]; grind

@[simp] theorem read?_write_same (m : Memory) (a : Nat) (v : Byte) : (m.write a v).read? a = some v := by
  simp [read?_write]

theorem read?_write_other (m : Memory) {a b : Nat} (v : Byte) (h : b ≠ a) : (m.write a v).read? b = m.read? b := by
  simp [read?_write, h]

/-- Every cell of a buffer after a write is the new cell or an old one. -/
theorem mem_write {m : Memory} {a : Nat} {v : Byte} {c : Host.Cell} (h : c ∈ m.write a v) : c = (a, v) ∨ c ∈ m := by
  induction m with
  | nil => simpa [Memory.write] using h
  | cons d m ih =>
    obtain ⟨x, w⟩ := d
    simp only [Memory.write] at h
    split at h
    · simpa using h
    · split at h
      · simp only [List.mem_cons] at h ⊢; tauto
      · simp only [List.mem_cons] at h ⊢; tauto

theorem write_wf {m : Memory} (h : m.wf) (a : Nat) (v : Byte) : (m.write a v).wf := by
  induction m with
  | nil => simp [Memory.write, Memory.wf]
  | cons d m ih =>
    obtain ⟨x, w⟩ := d
    simp only [Memory.wf, List.pairwise_cons] at h
    simp only [Memory.write]
    split
    · simp only [Memory.wf, List.pairwise_cons, List.mem_cons]
      refine ⟨?_, h⟩
      rintro c (rfl | hc)
      · assumption
      · exact Nat.lt_trans ‹a < x› (h.1 c hc)
    · split
      · simp only [Memory.wf, List.pairwise_cons]
        refine ⟨?_, h.2⟩
        intro c hc
        exact ‹a = x› ▸ h.1 c hc
      · simp only [Memory.wf, List.pairwise_cons]
        refine ⟨?_, ih h.2⟩
        intro c hc
        rcases mem_write hc with rfl | hc
        · simp only at *; omega
        · exact h.1 c hc

theorem write_good {size : Nat} {m : Memory} (h : Memory.good size m) {a : Nat} (ha : a < size) (v : Byte) :
    Memory.good size (m.write a v) := by
  refine ⟨write_wf h.1 a v, ?_⟩
  intro c hc
  rcases mem_write hc with rfl | hc
  · exact ha
  · exact h.2 c hc

theorem writeBytes_good {size : Nat} (vs : List Byte) : ∀ {m : Memory} {a : Nat}, Memory.good size m →
    a + vs.length ≤ size → Memory.good size (m.writeBytes a vs) := by
  induction vs with
  | nil => intro m a h _; exact h
  | cons v vs ih =>
    intro m a h ha
    simp only [List.length_cons] at ha
    exact ih (write_good h (by omega) v) (by omega)

theorem eraseFrom_good {size : Nat} {m : Memory} (h : Memory.good size m) (a : Nat) :
    Memory.good size (m.eraseFrom a) :=
  ⟨h.1.filter _, fun c hc => h.2 c (List.mem_of_mem_filter hc)⟩

theorem empty_good (size : Nat) : Memory.good size [] := by simp [Memory.good, Memory.wf]

theorem read?_eraseFrom (m : Memory) (d a : Nat) :
    (m.eraseFrom d).read? a = if a < d then m.read? a else none := by
  induction m with
  | nil => simp [Memory.eraseFrom, Memory.read?]
  | cons c m ih =>
    obtain ⟨x, w⟩ := c
    simp only [Memory.eraseFrom, List.filter_cons] at ih ⊢
    by_cases hx : x < d <;> simp only [hx, decide_true, decide_false, if_true, Memory.read?] <;> grind

/-- What a read gives after bytes have been written at `a`, `a+1`, ... -/
theorem read?_writeBytes (vs : List Byte) : ∀ (m : Memory) (a b : Nat),
    (m.writeBytes a vs).read? b =
      if a ≤ b ∧ b < a + vs.length then vs[b - a]? else m.read? b := by
  induction vs with
  | nil => intro m a b; simp only [Memory.writeBytes, List.length_nil]; split <;> [omega; rfl]
  | cons v vs ih =>
    intro m a b
    simp only [Memory.writeBytes, ih, read?_write, List.length_cons]
    by_cases h1 : b = a
    · subst h1; simp
    · by_cases h2 : a + 1 ≤ b ∧ b < a + 1 + vs.length
      · have e : b - a = (b - (a + 1)) + 1 := by omega
        rw [if_pos h2, if_pos (by omega), e, List.getElem?_cons_succ]
      · rw [if_neg h2, if_neg h1, if_neg (by omega)]

@[simp] theorem length_range (m : Memory) (a n : Nat) : (m.range a n).length = n := by simp [Memory.range]

theorem getElem?_range {m : Memory} {a n k : Nat} (h : k < n) : (m.range a n)[k]? = some (m.read? (a + k)) := by
  simp [Memory.range, h]

/-- The range just written reads back what was written. -/
theorem range_writeBytes (m : Memory) (a : Nat) (vs : List Byte) :
    (m.writeBytes a vs).range a vs.length = vs.map some := by
  apply List.ext_getElem?
  intro k
  by_cases h : k < vs.length
  · rw [getElem?_range h, read?_writeBytes, if_pos (by omega)]; simp [h]
  · simp [Memory.range, h]

/-! ### Free values -/

@[simp] theorem unwrittenIn_map_some (b : List Byte) : unwrittenIn (b.map some) = 0 := by
  simp [unwrittenIn]

@[simp] theorem fillUnwritten_map_some (c : Nat) (b : List Byte) : fillUnwritten c (b.map some) = b := by
  induction b with
  | nil => rfl
  | cons v b ih => simp [fillUnwritten, ih]

theorem unwrittenIn_pos_iff (l : List (Option Byte)) : 0 < unwrittenIn l ↔ allWritten l = false := by
  induction l with
  | nil => simp [unwrittenIn, allWritten]
  | cons x l ih =>
    cases x with
    | none => simp [unwrittenIn, allWritten]
    | some v => exact ih

/-- A source that is written reads as its bytes. -/
@[simp] theorem readBytes_map_some (s : State) (b : List Byte) : s.readBytes (b.map some) = b := by
  simp [State.readBytes]

/-- Reading a written source changes nothing. -/
@[simp] theorem noteReads_map_some (s : State) (b : List Byte) : s.noteReads (b.map some) = s := by
  simp [State.noteReads]

/-- An allWritten range is the image of its bytes. -/
theorem exists_bytes_of_allWritten {l : List (Option Byte)} (h : allWritten l = true) :
    ∃ b : List Byte, l = b.map some := by
  induction l with
  | nil => exact ⟨[], rfl⟩
  | cons x l ih =>
    simp only [allWritten, List.all_cons, Bool.and_eq_true] at h
    obtain ⟨b, rfl⟩ := ih h.2
    cases x with
    | none => simp at h
    | some v => exact ⟨v :: b, rfl⟩

end Sys2Proof.Laws
end

