-- ==== Sys2Proof/Laws/Machine.lean ====
section
/-! SUPPORT. What each command's body, each host turn and each step can do, said once. -/

namespace Sys2Proof.Laws

open Sys2Proof Sys2Proof.Machine

/-! ### Commands -/

/-- The body of each command; completion follows it (30_encoding.md R55). -/
def bodyOf : Instr → State → State
  | .nop, s => s
  | .ext start len, s => extBody start len s
  | .par, s => parBody s
  | .i2w index, s => i2wBody index s
  | .w2i, s => w2iBody s
  | .encb, s => encbBody s
  | .decb, s => decbBody s
  | .enc, s => encBody s
  | .dec, s => decBody s
  | .clr, s => s.clearRegisters

/-- Every command answers a next state: its body's, completed. -/
theorem exec_eq (i : Instr) (s : State) : exec i s = .next (bodyOf i s).complete := by
  cases i <;> rfl

theorem exec_next_iff (i : Instr) (s t : State) : exec i s = .next t ↔ t = (bodyOf i s).complete := by
  rw [exec_eq]; exact ⟨fun h => (Host.Outcome.next.inj h).symm, fun h => h ▸ rfl⟩

theorem parBody_cases (s : State) : ∃ v, parBody s = { s with res := v } := ⟨_, rfl⟩

theorem i2wBody_cases (index : Nat) (s : State) : ∃ c n, i2wBody index s = { s with wchr := c, wlen := n } :=
  ⟨_, _, rfl⟩

/-- What ENCB writes, with the values named: a proof about anything else need not unfold the checksum. -/
theorem encbBody_cases (s : State) : ∃ b x v, encbBody s = { s with blk := b, idx := x, res := v } :=
  ⟨_, _, _, rfl⟩

theorem extBody_cases (start len : Nat) (s : State) :
    extBody start len s = s.raiseErr ⟨.bounds, 0, 0⟩ ∨ ∃ v, extBody start len s = { s with res := v } := by
  unfold extBody; split
  · exact .inl rfl
  · exact .inr ⟨_, rfl⟩

theorem w2iBody_cases (s : State) :
    w2iBody s = s.raiseErr ⟨.lexical, 0, 0⟩ ∨ w2iBody s = s.raiseErr ⟨.unknownWord, 0, 0⟩ ∨
      ∃ v, w2iBody s = { s with res := v } := by
  unfold w2iBody; split
  · split
    · exact .inr (.inr ⟨_, rfl⟩)
    · exact .inr (.inl rfl)
  · exact .inl rfl

theorem decbBody_cases (s : State) :
    ∃ b v, decbBody s = { s with blk := b, res := v } ∨
      decbBody s = State.raiseErr { s with blk := b, res := v } ⟨.checksum, 5, 0⟩ := by
  unfold decbBody; split
  · exact ⟨_, _, .inl rfl⟩
  · exact ⟨_, _, .inr rfl⟩

/-- ENC: RANGE with nothing read, RANGE after the read, or the text committed. -/
theorem encBody_cases (s : State) :
    encBody s = State.raiseErr { s with outLen := 0 } ⟨.range, 0, 0⟩ ∨
    encBody s = (State.noteReads { s with outLen := 0 } s.encSource).raiseErr ⟨.range, 0, 0⟩ ∨
    ∃ text : List Byte, s.dstAddr.toNat + text.length ≤ s.cfg.tmemSize ∧
      encBody s = { State.noteReads { s with outLen := 0 } s.encSource with
        tmem := s.tmem.writeBytes s.dstAddr.toNat text, outLen := BitVec.ofNat 32 text.length } := by
  unfold encBody; split
  · exact .inl rfl
  · unfold encCommit; split
    · exact .inr (.inl rfl)
    · rename_i h
      refine .inr (.inr ⟨_, ?_, rfl⟩)
      simpa using h

/-- A group's output is eight bytes. -/
theorem decodeGroup_length {d : List (List Byte)} {n : Nat} {g : List Token} {out : List Byte}
    (h : decodeGroup d n g = .ok out) : out.length = 8 := by
  have hlen : ∀ idx, ((concat idx).take 8).length = 8 := by
    intro idx
    have : ∀ (l : List Nat) (p : List Byte) (j v : Nat), (l.foldl
        (fun q k => if bitField v (10 - k) (10 - k) = 1 then orBit q (11 * j + k) else q) p).length = p.length := by
      intro l
      induction l with
      | nil => intros; rfl
      | cons k l ih => intro p j v; rw [List.foldl_cons, ih]; split <;> simp [orBit]
    have h2 : ∀ (l : List Nat) (p : List Byte),
        (l.foldl (fun p j => placeField p j (idx.getD j 0)) p).length = p.length := by
      intro l
      induction l with
      | nil => intros; rfl
      | cons k l ih => intro p; rw [List.foldl_cons, ih]; exact this _ _ _ _
    rw [List.length_take, concat, h2]; rfl
  unfold decodeGroup at h
  split at h
  · cases h
  · split at h
    · cases h; exact hlen _
    · cases h

/-- The output of the group fold is eight bytes a group (44_decoder.md R122(a)). -/
theorem decodeGroups_length {d : List (List Byte)} : ∀ (k n : Nat) (toks : List Token) (out : List Byte),
    toks.length = 6 * k → decodeGroups d n toks = .ok out → out.length = 8 * k := by
  intro k
  induction k with
  | zero =>
    intro n toks out hl h
    have : toks = [] := List.length_eq_zero_iff.mp hl
    subst this; cases h; rfl
  | succ k ih =>
    intro n toks out hl h
    match toks, hl with
    | t0 :: t1 :: t2 :: t3 :: t4 :: t5 :: ts, hl =>
      simp only [decodeGroups] at h
      split at h
      · cases h
      · rename_i out0 h0
        split at h
        · cases h
        · rename_i rest h1
          cases h
          have := ih _ _ _ (by simp only [List.length_cons] at hl; omega) h1
          rw [List.length_append, decodeGroup_length h0, this]; omega

/-- Which codes the group fold reports (60_exceptions.md R150). -/
theorem decodeGroups_error {d : List (List Byte)} {e : ErrInfo} : ∀ (k n : Nat) (toks : List Token),
    toks.length < 6 * k → decodeGroups d n toks = .error e →
    e.code = .lexical ∨ e.code = .unknownWord ∨ e.code = .checksum := by
  have hlook : ∀ (toks : List Token) (n : Nat), lookupTokens d n toks = .error e →
      e.code = .lexical ∨ e.code = .unknownWord := by
    intro toks
    induction toks with
    | nil => intro n h; cases h
    | cons t ts ih =>
      intro n h
      simp only [lookupTokens] at h
      split at h
      · split at h
        · cases h; exact .inr rfl
        · split at h
          · rename_i h2; cases h; exact ih _ h2
          · cases h
      · cases h; exact .inl rfl
  intro k
  induction k with
  | zero => intro n toks hl; omega
  | succ k ih =>
    intro n toks hl h
    match toks, hl, h with
    | t0 :: t1 :: t2 :: t3 :: t4 :: t5 :: ts, hl, h =>
      simp only [decodeGroups] at h
      split at h
      · rename_i e0 h0
        cases h
        unfold decodeGroup at h0
        split at h0
        · rename_i h1
          cases h0
          rcases hlook _ _ h1 with h | h
          · exact .inl h
          · exact .inr (.inl h)
        · split at h0
          · cases h0
          · cases h0; exact .inr (.inr rfl)
      · split at h
        · rename_i e1 h1
          cases h
          exact ih _ _ (by simp only [List.length_cons] at hl; omega) h1
        · cases h

/-- DEC: RANGE with nothing read, an error after the read, or the output committed. -/
theorem decBody_cases (s : State) :
    decBody s = State.raiseErr { s with outLen := 0 } ⟨.range, 0, 0⟩ ∨
    (∃ e : ErrInfo, (e.code = .range ∨ e.code = .structural ∨ e.code = .lexical ∨ e.code = .unknownWord ∨
        e.code = .checksum) ∧
      decBody s = (State.noteReads { s with outLen := 0 } s.decSource).raiseErr e) ∨
    ∃ out : List Byte, s.dstAddr.toNat + out.length ≤ s.cfg.dmemSize ∧
      decBody s = { State.noteReads { s with outLen := 0 } s.decSource with
        dmem := s.dmem.writeBytes s.dstAddr.toNat out, outLen := BitVec.ofNat 32 out.length } := by
  unfold decBody; split
  · exact .inl rfl
  · unfold decCommit; split
    · exact .inr (.inl ⟨_, by tauto, rfl⟩)
    · rename_i h6
      split
      · exact .inr (.inl ⟨_, by tauto, rfl⟩)
      · rename_i hr
        split
        · rename_i e he
          have := decodeGroups_error _ _ _ (Nat.lt_of_lt_of_le (Nat.lt_succ_self _) (by omega :
            (tokenize (s.readBytes s.decSource) s.srcAddr.toNat).length + 1 ≤
              6 * ((tokenize (s.readBytes s.decSource) s.srcAddr.toNat).length + 1))) he
          exact .inr (.inl ⟨_, by tauto, rfl⟩)
        · rename_i out ho
          have := decodeGroups_length _ _ _ _ (by omega :
            (tokenize (s.readBytes s.decSource) s.srcAddr.toNat).length =
              6 * ((tokenize (s.readBytes s.decSource) s.srcAddr.toNat).length / 6)) ho
          refine .inr (.inr ⟨out, ?_, rfl⟩)
          rw [this]
          simpa using hr

/-! ### ENC and DEC branch by branch (43_encoder.md R107, 44_decoder.md R121) -/

theorem encBody_range {s : State} (h : s.cfg.dmemSize < s.srcAddr.toNat + s.srcLen.toNat) :
    encBody s = State.raiseErr { s with outLen := 0 } ⟨.range, 0, 0⟩ := by rw [encBody, if_pos h]

theorem encBody_read {s : State} (h : s.srcAddr.toNat + s.srcLen.toNat ≤ s.cfg.dmemSize) :
    encBody s = encCommit (encodeText s.cfg.dict (s.readBytes s.encSource))
      (State.noteReads { s with outLen := 0 } s.encSource) := by rw [encBody, if_neg (Nat.not_lt.mpr h)]

theorem encCommit_range {text : List Byte} {s : State} (h : s.cfg.tmemSize < s.dstAddr.toNat + text.length) :
    encCommit text s = s.raiseErr ⟨.range, 0, 0⟩ := by rw [encCommit, if_pos h]

theorem encCommit_fits {text : List Byte} {s : State} (h : s.dstAddr.toNat + text.length ≤ s.cfg.tmemSize) :
    encCommit text s =
      { s with tmem := s.tmem.writeBytes s.dstAddr.toNat text, outLen := BitVec.ofNat 32 text.length } := by
  rw [encCommit, if_neg (Nat.not_lt.mpr h)]

theorem decBody_range {s : State} (h : s.cfg.tmemSize < s.srcAddr.toNat + s.srcLen.toNat) :
    decBody s = State.raiseErr { s with outLen := 0 } ⟨.range, 0, 0⟩ := by rw [decBody, if_pos h]

theorem decBody_read {s : State} (h : s.srcAddr.toNat + s.srcLen.toNat ≤ s.cfg.tmemSize) :
    decBody s = decCommit (tokenize (s.readBytes s.decSource) s.srcAddr.toNat)
      (State.noteReads { s with outLen := 0 } s.decSource) := by rw [decBody, if_neg (Nat.not_lt.mpr h)]

theorem decCommit_structural {toks : List Token} {s : State} {tok : Token} (h : toks.length % 6 ≠ 0)
    (ht : toks[6 * (toks.length / 6)]? = some tok) :
    decCommit toks s = s.raiseErr ⟨.structural, 6 * (toks.length / 6), tok.addr⟩ := by
  rw [decCommit, if_pos h, List.getD_eq_getElem?_getD, ht]; rfl

theorem decCommit_range {toks : List Token} {s : State} (h : toks.length % 6 = 0)
    (hr : s.cfg.dmemSize < s.dstAddr.toNat + 8 * (toks.length / 6)) :
    decCommit toks s = s.raiseErr ⟨.range, 0, 0⟩ := by rw [decCommit, if_neg (by simpa using h), if_pos hr]

theorem decCommit_error {toks : List Token} {s : State} {e : ErrInfo} (h : toks.length % 6 = 0)
    (hr : s.dstAddr.toNat + 8 * (toks.length / 6) ≤ s.cfg.dmemSize)
    (hd : decodeGroups s.cfg.dict 0 toks = .error e) : decCommit toks s = s.raiseErr e := by
  rw [decCommit, if_neg (by simpa using h), if_neg (Nat.not_lt.mpr hr), hd]

theorem decCommit_fits {toks : List Token} {s : State} {out : List Byte} (h : toks.length % 6 = 0)
    (hr : s.dstAddr.toNat + 8 * (toks.length / 6) ≤ s.cfg.dmemSize)
    (hd : decodeGroups s.cfg.dict 0 toks = .ok out) :
    decCommit toks s =
      { s with dmem := s.dmem.writeBytes s.dstAddr.toNat out, outLen := BitVec.ofNat 32 out.length } := by
  rw [decCommit, if_neg (by simpa using h), if_neg (Nat.not_lt.mpr hr), hd]

/-! ### The host port -/

/-- What a bus access can do to the core and to the host's record. -/
inductive BusEffect (s : State) : State → Prop where
  | nothing : BusEffect s s
  | violation : BusEffect s s.violation
  | readStatus : BusEffect s s.readStatus
  | readRegister (off : Nat) : BusEffect s (s.logRead (s.readOffset off))
  | writeRegister (off : Nat) (v : Word) : s.locked = false → BusEffect s (s.writeOffset off v)
  | readBuffer (cell : Option Byte) : BusEffect s (s.hostReadByte cell)
  | writeDmem (off : Nat) (v : Byte) : off < s.cfg.dmemSize → BusEffect s { s with dmem := s.dmem.write off v }
  | writeTmem (off : Nat) (v : Byte) : off < s.cfg.tmemSize → BusEffect s { s with tmem := s.tmem.write off v }

/-- The offsets a byte access can have. -/
theorem busTarget_dmem {c : Config} {addr bytes off : Nat} (h : busTarget c addr bytes = .dmem off) :
    off < c.dmemSize := by
  unfold busTarget at h
  split at h
  · cases h
  · split at h <;> cases h
  · rename_i _ h1 _
    split at h
    · rename_i hb
      injection h with h
      simp only [touches, decide_eq_true_eq] at h1
      omega
    · cases h
  · split at h <;> cases h
  · split at h <;> cases h

theorem busTarget_tmem {c : Config} {addr bytes off : Nat} (h : busTarget c addr bytes = .tmem off) :
    off < c.tmemSize := by
  unfold busTarget at h
  split at h
  · cases h
  · split at h <;> cases h
  · split at h <;> cases h
  · rename_i h1
    split at h
    · rename_i hb
      injection h with h
      simp only [touches, decide_eq_true_eq] at h1
      omega
    · cases h
  · split at h <;> cases h

/-- The three windows apart, as arithmetic (20_memory.md R43). -/
theorem windowsApart_iff {c : Config} : windowsApart c = true ↔
    (min (c.regBase + 256) (c.dmemBase + c.dmemSize) ≤ max c.regBase c.dmemBase ∧
      min (c.regBase + 256) (c.tmemBase + c.tmemSize) ≤ max c.regBase c.tmemBase) ∧
    min (c.dmemBase + c.dmemSize) (c.tmemBase + c.tmemSize) ≤ max c.dmemBase c.tmemBase := by
  unfold windowsApart apart regWindowSize
  rw [Bool.and_eq_true, Bool.and_eq_true, decide_eq_true_eq, decide_eq_true_eq, decide_eq_true_eq]

/-- An aligned register access on a lawful platform. -/
theorem busTarget_reg_of_apart {c : Config} (h : windowsApart c = true) {a : Nat} (ha : a < 256) (h4 : a % 4 = 0) :
    busTarget c (c.regBase + a) 4 = .reg a := by
  obtain ⟨⟨g1, g2⟩, _⟩ := windowsApart_iff.mp h
  have h1 : touches c.regBase regWindowSize (c.regBase + a) 4 = true := by
    unfold touches regWindowSize; rw [decide_eq_true_eq]; omega
  have h2 : touches c.dmemBase c.dmemSize (c.regBase + a) 4 = false := by
    simp only [touches, decide_eq_false_iff_not]; omega
  have h3 : touches c.tmemBase c.tmemSize (c.regBase + a) 4 = false := by
    simp only [touches, decide_eq_false_iff_not]; omega
  simp [busTarget, h1, h2, h3, h4]

/-- A byte access to DMEM on a lawful platform. -/
theorem busTarget_dmem_of_apart {c : Config} (h : windowsApart c = true) {a : Nat} (ha : a < c.dmemSize) :
    busTarget c (c.dmemBase + a) 1 = .dmem a := by
  obtain ⟨⟨g1, _⟩, g3⟩ := windowsApart_iff.mp h
  have h1 : touches c.regBase regWindowSize (c.dmemBase + a) 1 = false := by
    unfold touches regWindowSize; rw [decide_eq_false_iff_not]; omega
  have h2 : touches c.dmemBase c.dmemSize (c.dmemBase + a) 1 = true := by
    simp only [touches, decide_eq_true_eq]; omega
  have h3 : touches c.tmemBase c.tmemSize (c.dmemBase + a) 1 = false := by
    simp only [touches, decide_eq_false_iff_not]; omega
  simp [busTarget, h1, h2, h3]

/-- A byte access to TMEM on a lawful platform. -/
theorem busTarget_tmem_of_apart {c : Config} (h : windowsApart c = true) {a : Nat} (ha : a < c.tmemSize) :
    busTarget c (c.tmemBase + a) 1 = .tmem a := by
  obtain ⟨⟨_, g2⟩, g3⟩ := windowsApart_iff.mp h
  have h1 : touches c.regBase regWindowSize (c.tmemBase + a) 1 = false := by
    unfold touches regWindowSize; rw [decide_eq_false_iff_not]; omega
  have h2 : touches c.dmemBase c.dmemSize (c.tmemBase + a) 1 = false := by
    simp only [touches, decide_eq_false_iff_not]; omega
  have h3 : touches c.tmemBase c.tmemSize (c.tmemBase + a) 1 = true := by
    simp only [touches, decide_eq_true_eq]; omega
  simp [busTarget, h1, h2, h3]

/-- Two windows claim no access of a lawful platform (log 4). -/
theorem busTarget_ne_overlap {c : Config} (h : windowsApart c = true) (addr bytes : Nat) :
    busTarget c addr bytes ≠ .overlap := by
  unfold busTarget
  split <;> (try split) <;> simp_all

theorem busReadWord_effect {addr : Nat} {s t : State} (h : busReadWord addr s = .next t) : BusEffect s t := by
  unfold busReadWord at h
  split at h
  · unfold hostReadReg at h
    split at h
    · cases h; exact .readStatus
    · split at h <;> cases h
      · exact .violation
      · exact .readRegister _
  all_goals cases h
  · exact .violation
  · exact .violation
  · exact .violation
  · exact .nothing

theorem busWriteWord_effect {addr : Nat} {v : Word} {s t : State} (h : busWriteWord addr v s = .next t) :
    BusEffect s t := by
  unfold busWriteWord at h
  split at h
  · unfold hostWriteReg at h
    split at h
    · cases h; exact .violation
    · rename_i hl
      cases h; exact .writeRegister _ _ (by simpa using hl)
  all_goals cases h
  · exact .violation
  · exact .violation
  · exact .violation
  · exact .nothing

theorem busReadByte_effect {addr : Nat} {s t : State} (h : busReadByte addr s = .next t) : BusEffect s t := by
  unfold busReadByte at h
  split at h
  · cases h; exact .violation
  · unfold hostReadBuffer at h
    split at h <;> cases h
    · exact .violation
    · exact .readBuffer _
  · unfold hostReadBuffer at h
    split at h <;> cases h
    · exact .violation
    · exact .readBuffer _
  all_goals cases h
  · exact .violation
  · exact .nothing

theorem busWriteByte_effect {addr : Nat} {v : Byte} {s t : State} (h : busWriteByte addr v s = .next t) :
    BusEffect s t := by
  unfold busWriteByte at h
  split at h
  · cases h; exact .violation
  · rename_i ht
    split at h <;> cases h
    · exact .violation
    · exact .writeDmem _ _ (busTarget_dmem ht)
  · rename_i ht
    split at h <;> cases h
    · exact .violation
    · exact .writeTmem _ _ (busTarget_tmem ht)
  all_goals cases h
  · exact .violation
  · exact .nothing

theorem busOtherAccess_effect {addr bytes : Nat} {s t : State} (h : busOtherAccess addr bytes s = .next t) :
    BusEffect s t := by
  unfold busOtherAccess at h
  split at h <;> cases h
  · exact .violation
  · exact .violation
  · exact .violation
  · exact .violation
  · exact .nothing

/-- A host turn is a bus access or the reset input, the host's remaining actions moved on. -/
theorem hostTurn_cases {op : HostOp} {rest : List HostOp} {s t : State} (h : hostTurn op rest s = .next t) :
    t = State.resetInput { s with inputs := rest } ∨ ∃ l, BusEffect { s with inputs := l } t := by
  cases op with
  | readWord addr => exact .inr ⟨_, busReadWord_effect h⟩
  | writeWord addr v => exact .inr ⟨_, busWriteWord_effect h⟩
  | readByte addr => exact .inr ⟨_, busReadByte_effect h⟩
  | writeByte addr v => exact .inr ⟨_, busWriteByte_effect h⟩
  | otherAccess addr bytes => exact .inr ⟨_, busOtherAccess_effect h⟩
  | poll => exact .inr ⟨_, busReadWord_effect h⟩
  | reset => exact .inl (Host.Outcome.next.inj h).symm

/-! ### The step -/

/-- What a step that answers a next state did: nothing, the CORE step, or a host turn. -/
theorem step_cases {s t : State} (h : step s = .next t) :
    s.refused = false ∧
    (t = s ∨
    (∃ w, s.pending = some w ∧ coreStep w s = .next t) ∨
    ∃ op rest d, hostTurn op rest { s with delay := d } = .next t) := by
  unfold step at h
  split at h
  · cases h
  · rename_i w hr hp
    refine ⟨hr, .inr ?_⟩
    unfold busyTurn at h
    split at h
    · exact .inr ⟨_, _, _, h⟩
    · exact .inl ⟨w, hp, h⟩
    · exact .inl ⟨w, hp, h⟩
  · rename_i hr hp
    refine ⟨hr, ?_⟩
    unfold idleTurn at h
    split at h
    · exact .inr (.inr ⟨_, _, s.delay, h⟩)
    · cases h; exact .inl rfl

/-- A CORE step is a completed body: a command's, or the raise of ILLEGAL_CMD. -/
theorem coreStep_cases {w : Word} {s t : State} (h : coreStep w s = .next t) :
    (∃ i, decode w = .ok i ∧ t = (bodyOf i s).complete) ∨
      t = s.failed ⟨.illegalCmd, 0, 0⟩ := by
  unfold coreStep at h
  split at h
  · rename_i i hi
    exact .inl ⟨i, hi, (exec_next_iff _ _ _).mp h⟩
  · cases h; exact .inr rfl

end Sys2Proof.Laws
end

