-- ==== Sys2Proof/Laws/PerInstr.lean ====
section
/-! SUPPORT. Facts about every command as syntax, one lemma a constructor. -/

namespace Sys2Proof.Laws

open Sys2Proof

/-- Family EncodedWord: the word of a well-formed command has the command's OP in [31:28] and its operand bits in [27:0]
(30_encoding.md R57, R59). -/
def EncodedWord.Statement (i : Instr) : Prop :=
  i.wellFormed = true → operandBits i < 2 ^ 28 ∧ (encode i).toNat = 2 ^ 28 * opcode i + operandBits i

theorem EncodedWord.nop : EncodedWord.Statement .nop := by intro _; decide

theorem EncodedWord.ext (start len : Nat) : EncodedWord.Statement (.ext start len) := by
  intro h
  simp only [Instr.wellFormed, Bool.and_eq_true, decide_eq_true_eq] at h
  simp only [encode, opcode, operandBits, BitVec.toNat_ofNat]; omega

theorem EncodedWord.par : EncodedWord.Statement .par := by intro _; decide

theorem EncodedWord.i2w (index : Nat) : EncodedWord.Statement (.i2w index) := by
  intro h
  simp only [Instr.wellFormed, decide_eq_true_eq] at h
  simp only [encode, opcode, operandBits, BitVec.toNat_ofNat]; omega

theorem EncodedWord.w2i : EncodedWord.Statement .w2i := by intro _; decide

theorem EncodedWord.encb : EncodedWord.Statement .encb := by intro _; decide

theorem EncodedWord.decb : EncodedWord.Statement .decb := by intro _; decide

theorem EncodedWord.enc : EncodedWord.Statement .enc := by intro _; decide

theorem EncodedWord.dec : EncodedWord.Statement .dec := by intro _; decide

theorem EncodedWord.clr : EncodedWord.Statement .clr := by intro _; decide

end Sys2Proof.Laws
end

