-- ==== Sys2Proof/Laws/Text.lean ====
section
/-! SUPPORT. Padding and blocks, joining and tokenising, and the group decoder's answers. -/

namespace Sys2Proof.Laws

open Sys2Proof Sys2Proof.Machine

/-! ### Padding and blocks (43_encoder.md R103, R104) -/

theorem length_pad (b : List Byte) : (pad b).length = 8 * ((b.length + 7) / 8) := by
  simp only [pad, List.length_append, List.length_replicate]; omega

theorem numBlocks_eq (b : List Byte) : numBlocks b = (b.length + 7) / 8 := by
  rw [numBlocks, length_pad]; omega

theorem length_blockAt {b : List Byte} {k : Nat} (h : k < numBlocks b) : (blockAt b k).length = 8 := by
  have := length_pad b
  rw [numBlocks] at h
  simp only [blockAt, List.length_take, List.length_drop]; omega

/-- The blocks in order are the padded buffer. -/
theorem flatMap_chunks (l : List Byte) : ∀ n, l.length = 8 * n →
    (List.range n).flatMap (fun k => (l.drop (8 * k)).take 8) = l := by
  intro n
  induction n generalizing l with
  | zero => intro h; simp at h; simp [h]
  | succ n ih =>
    intro h
    have hd : (l.drop 8).length = 8 * n := by simp; omega
    rw [List.range_succ_eq_map, List.flatMap_cons, List.flatMap_map]
    have : (List.range n).flatMap (fun k => (l.drop (8 * (k + 1))).take 8) = l.drop 8 := by
      conv_rhs => rw [← ih (l.drop 8) hd]
      congr 1; funext k
      rw [List.drop_drop]; congr 2; omega
    rw [this]; simp

theorem flatMap_blockAt (b : List Byte) : (List.range (numBlocks b)).flatMap (blockAt b) = pad b := by
  apply flatMap_chunks
  rw [numBlocks, length_pad]; omega

/-! ### Words -/

@[simp] theorem length_blockWords (d : List (List Byte)) (b : List Byte) : (blockWords d b).length = 6 := by
  simp [blockWords]

theorem blockWords_mem {d : List (List Byte)} (h : dictOK d = true) {b w : List Byte} (hw : w ∈ blockWords d b) :
    w ∈ d := by
  simp only [blockWords, List.mem_map] at hw
  obtain ⟨i, hi, rfl⟩ := hw
  exact wordOf_mem h (sliceBlock_lt hi)

theorem encodeWords_mem {d : List (List Byte)} (h : dictOK d = true) {b w : List Byte} (hw : w ∈ encodeWords d b) :
    w ∈ d := by
  simp only [encodeWords, List.mem_flatMap] at hw
  obtain ⟨k, _, hk⟩ := hw
  exact blockWords_mem h hk

/-- A dictionary word holds no separator (00_scope.md R8(c), R14). -/
theorem noSep_of_mem {d : List (List Byte)} (h : dictOK d = true) {w : List Byte} (hw : w ∈ d) :
    ∀ c ∈ w, isSep c = false :=
  fun c hc => isSep_of_printable ((dictOK_entry h hw).2.2 c hc).1

/-! ### Tokenising (44_decoder.md R118) -/

theorem splitTokens_ne_nil (t : List Byte) (a : Nat) : splitTokens t a ≠ [] := by
  cases t with
  | nil => simp [splitTokens]
  | cons c t =>
    simp only [splitTokens]
    split
    · simp
    · split <;> simp

/-- A text without a separator is one token. -/
theorem splitTokens_word {w : List Byte} (h : ∀ c ∈ w, isSep c = false) (a : Nat) : splitTokens w a = [⟨w, a⟩] := by
  induction w generalizing a with
  | nil => rfl
  | cons c w ih =>
    simp only [List.mem_cons, forall_eq_or_imp] at h
    simp [splitTokens, h.1, ih h.2]

/-- A word, a separator, and the rest. -/
theorem splitTokens_word_sep {w : List Byte} (h : ∀ c ∈ w, isSep c = false) {s : Byte} (hs : isSep s = true)
    (t : List Byte) (a : Nat) :
    splitTokens (w ++ s :: t) a = ⟨w, a⟩ :: splitTokens t (a + w.length + 1) := by
  induction w generalizing a with
  | nil => simp [splitTokens, hs]
  | cons c w ih =>
    simp only [List.mem_cons, forall_eq_or_imp] at h
    have e : a + 1 + w.length + 1 = a + (c :: w).length + 1 := by rw [List.length_cons]; omega
    simp only [List.cons_append, splitTokens, h.1, ih h.2, e]; rfl

theorem joinWords_cons_cons (w v : List Byte) (ws : List (List Byte)) :
    joinWords (w :: v :: ws) = w ++ 0x20#8 :: joinWords (v :: ws) := by simp [joinWords]

/-- A joined text tokenises back into its words. -/
theorem splitTokens_joinWords : ∀ (ws : List (List Byte)) (w : List Byte) (a : Nat),
    (∀ v ∈ w :: ws, ∀ c ∈ v, isSep c = false) →
    (splitTokens (joinWords (w :: ws)) a).map Token.chars = w :: ws := by
  intro ws
  induction ws with
  | nil => intro w a h; simp [joinWords, splitTokens_word (h w (by simp))]
  | cons v ws ih =>
    intro w a h
    rw [joinWords_cons_cons, splitTokens_word_sep (h w (by simp)) (by decide), List.map_cons,
      ih v _ fun x hx => h x (List.mem_cons_of_mem _ hx)]

theorem tokenize_joinWords {ws : List (List Byte)} (h : ∀ v ∈ ws, ∀ c ∈ v, isSep c = false)
    (hne : ∀ v ∈ ws, v ≠ []) (a : Nat) : (tokenize (joinWords ws) a).map Token.chars = ws := by
  cases ws with
  | nil => rfl
  | cons w ws =>
    have : joinWords (w :: ws) ≠ [] := by
      simp only [joinWords, ne_eq, List.append_eq_nil_iff, not_and]
      intro hw; exact absurd hw (hne w (by simp))
    rw [tokenize, if_neg (by simpa using this)]
    exact splitTokens_joinWords ws w a h

/-- Tokens of fold-equal texts: fold-equal characters at the same offsets. -/
theorem splitTokens_fold : ∀ (t u : List Byte) (a : Nat), foldWord t = foldWord u →
    (splitTokens t a).map (fun k => (foldWord k.chars, k.addr)) =
      (splitTokens u a).map fun k => (foldWord k.chars, k.addr) := by
  intro t
  induction t with
  | nil =>
    intro u a h
    have : u = [] := List.length_eq_zero_iff.mp (length_of_foldWord h).symm
    rw [this]
  | cons c t ih =>
    intro u a h
    cases u with
    | nil => exact absurd (length_of_foldWord h) (by simp)
    | cons e u =>
      simp only [foldWord, List.map_cons, List.cons.injEq] at h
      have hs : isSep c = isSep e := by rw [← isSep_fold c, ← isSep_fold e, h.1]
      have hi := ih u (a + 1) h.2
      simp only [splitTokens, hs]
      split
      · simp [hi]
      · rcases ht : splitTokens t (a + 1) with _ | ⟨x, xs⟩
        · exact absurd ht (splitTokens_ne_nil _ _)
        · rcases hu : splitTokens u (a + 1) with _ | ⟨y, ys⟩
          · exact absurd hu (splitTokens_ne_nil _ _)
          · rw [ht, hu] at hi
            simp only [List.map_cons, List.cons.injEq, Prod.mk.injEq] at hi ⊢
            refine ⟨⟨?_, trivial⟩, hi.2⟩
            simp only [foldWord, List.map_cons, List.cons.injEq]
            exact ⟨h.1, hi.1.1⟩

/-! ### Groups (44_decoder.md R120) -/

theorem tokenGood_iff {d : List (List Byte)} {tok : Token} :
    tokenGood d tok = true ↔ ∃ i, lexOK tok.chars.length = true ∧ indexOf d tok.chars = some i := by
  simp [tokenGood, Option.isSome_iff_exists]

/-- Good tokens look up to their indices. -/
theorem lookupTokens_good {d : List (List Byte)} : ∀ {toks : List Token} (n : Nat),
    (∀ tok ∈ toks, tokenGood d tok = true) → lookupTokens d n toks = .ok (toks.map (tokenIndex d)) := by
  intro toks
  induction toks with
  | nil => intro n _; rfl
  | cons tok toks ih =>
    intro n h
    obtain ⟨i, hl, hi⟩ := tokenGood_iff.mp (h tok (by simp))
    simp [lookupTokens, hl, hi, ih (n + 1) fun t ht => h t (List.mem_cons_of_mem _ ht), tokenIndex]

/-- The first bad token of a group is the one reported. -/
theorem lookupTokens_bad {d : List (List Byte)} {tok : Token} (hb : tokenGood d tok = false) :
    ∀ {pre : List Token} (post : List Token) (n : Nat), (∀ t ∈ pre, tokenGood d t = true) →
    lookupTokens d n (pre ++ tok :: post) =
      .error ⟨if lexOK tok.chars.length then .unknownWord else .lexical, n + pre.length, tok.addr⟩ := by
  intro pre
  induction pre with
  | nil =>
    intro post n _
    simp only [List.nil_append, lookupTokens, List.length_nil, Nat.add_zero]
    by_cases hl : lexOK tok.chars.length = true
    · have : indexOf d tok.chars = none := by simpa [tokenGood, hl] using hb
      simp [hl, this]
    · simp [hl]
  | cons t pre ih =>
    intro post n h
    obtain ⟨i, hl, hi⟩ := tokenGood_iff.mp (h t (by simp))
    have e : n + 1 + pre.length = n + (t :: pre).length := by rw [List.length_cons]; omega
    simp only [List.cons_append, lookupTokens, hl, hi, ih post (n + 1) fun t ht => h t (List.mem_cons_of_mem _ ht),
      if_true, e]

/-- One group at a time. -/
theorem decodeGroups_append {d : List (List Byte)} {g : List Token} (hg : g.length = 6) (n : Nat) (toks : List Token) :
    decodeGroups d n (g ++ toks) =
      match decodeGroup d n g with
      | .error e => .error e
      | .ok out =>
        match decodeGroups d (n + 6) toks with
        | .error e => .error e
        | .ok rest => .ok (out ++ rest) := by
  match g, hg with
  | [_, _, _, _, _, _], _ => rfl

@[simp] theorem decodeGroups_nil (d : List (List Byte)) (n : Nat) : decodeGroups d n [] = .ok [] := rfl

/-- A group of good tokens: its eight data bytes or CHECKSUM. -/
theorem decodeGroup_good {d : List (List Byte)} {g : List Token} (n : Nat) (h : ∀ tok ∈ g, tokenGood d tok = true) :
    decodeGroup d n g =
      if verifies (concat (g.map (tokenIndex d))) then .ok ((concat (g.map (tokenIndex d))).take 8)
      else .error ⟨.checksum, n + 5, (g.getD 5 ⟨[], 0⟩).addr⟩ := by
  simp only [decodeGroup, lookupTokens_good n h]

/-- The words of an encoded block decode to the block. -/
theorem decodeGroup_blockWords {d : List (List Byte)} (hd : dictOK d = true) {b : List Byte} (hb : b.length = 8)
    {g : List Token} (hg : g.map Token.chars = blockWords d b) (n : Nat) : decodeGroup d n g = .ok b := by
  have hidx : ∀ w ∈ blockWords d b, lexOK w.length = true ∧ (indexOf d w).isSome = true := by
    intro w hw
    simp only [blockWords, List.mem_map] at hw
    obtain ⟨i, hi, rfl⟩ := hw
    have he := dictOK_entry hd (wordOf_mem hd (sliceBlock_lt hi))
    simp [lexOK, he.1, he.2.1, indexOf_wordOf hd (sliceBlock_lt hi)]
  have hgood : ∀ tok ∈ g, tokenGood d tok = true := by
    intro tok ht
    have := hidx tok.chars (hg ▸ List.mem_map_of_mem ht)
    simp [tokenGood, this.1, this.2]
  have hmap : g.map (tokenIndex d) = sliceBlock (packBlock b) := by
    have : g.map (tokenIndex d) = (g.map Token.chars).map fun w => (indexOf d w).getD 0 := by
      rw [List.map_map]; rfl
    rw [this, hg, blockWords, List.map_map]
    conv_rhs => rw [← List.map_id (sliceBlock (packBlock b))]
    apply List.map_congr_left
    intro i hi
    simp [indexOf_wordOf hd (sliceBlock_lt hi)]
  rw [decodeGroup_good n hgood, hmap, concat_slice_packBlock hb, verifies_packBlock hb]
  simp [packBlock, hb]

/-- The group decoder sees its tokens only through `fold` and their offsets. -/
theorem lookupTokens_fold {d : List (List Byte)} : ∀ (n : Nat) (t u : List Token),
    t.map (fun k => (foldWord k.chars, k.addr)) = u.map (fun k => (foldWord k.chars, k.addr)) →
    lookupTokens d n t = lookupTokens d n u := by
  intro n t
  induction t generalizing n with
  | nil => intro u h; cases u with
    | nil => rfl
    | cons y u => simp at h
  | cons x t ih =>
    intro u h
    cases u with
    | nil => simp at h
    | cons y u =>
      simp only [List.map_cons, List.cons.injEq, Prod.mk.injEq] at h
      obtain ⟨⟨hf, ha⟩, ht⟩ := h
      simp only [lookupTokens, length_of_foldWord hf, indexOf_congr hf d, ha, ih (n + 1) u ht]

theorem decodeGroup_fold {d : List (List Byte)} (n : Nat) (t u : List Token)
    (h : t.map (fun k => (foldWord k.chars, k.addr)) = u.map (fun k => (foldWord k.chars, k.addr))) :
    decodeGroup d n t = decodeGroup d n u := by
  have ha : (t.getD 5 ⟨[], 0⟩).addr = (u.getD 5 ⟨[], 0⟩).addr := by
    have := congrArg (fun l : List (List Byte × Nat) => (l.getD 5 ([], 0)).2) h
    simp only [List.getD_eq_getElem?_getD, List.getElem?_map] at this ⊢
    generalize t[5]? = x at this ⊢
    generalize u[5]? = y at this ⊢
    cases x <;> cases y <;> exact this
  simp only [decodeGroup, lookupTokens_fold n t u h, ha]

theorem decodeGroups_fold {d : List (List Byte)} : ∀ (k : Nat) (n : Nat) (t u : List Token), t.length ≤ 6 * k →
    t.map (fun k => (foldWord k.chars, k.addr)) = u.map (fun k => (foldWord k.chars, k.addr)) →
    decodeGroups d n t = decodeGroups d n u := by
  intro k
  induction k with
  | zero =>
    intro n t u hl h
    have ht : t = [] := List.length_eq_zero_iff.mp (by omega)
    subst ht
    have : u = [] := by simpa using h.symm
    rw [this]
  | succ k ih =>
    intro n t u hl h
    have hlen : t.length = u.length := by simpa using congrArg List.length h
    by_cases h6 : 6 ≤ t.length
    · have ht := List.take_append_drop 6 t
      have hu := List.take_append_drop 6 u
      have h1 := congrArg (List.take 6) h
      have h2 := congrArg (List.drop 6) h
      rw [← List.map_take, ← List.map_take] at h1
      rw [← List.map_drop, ← List.map_drop] at h2
      rw [← ht, ← hu, decodeGroups_append (by simp; omega), decodeGroups_append (by simp; omega),
        decodeGroup_fold n _ _ h1, ih (n + 6) _ _ (by simp; omega) h2]
    · have short : ∀ l : List Token, l.length < 6 → decodeGroups d n l = .ok [] := by
        intro l hl
        match l, hl with
        | [], _ | [_], _ | [_, _], _ | [_, _, _], _ | [_, _, _, _], _ | [_, _, _, _, _], _ => rfl
      rw [short t (by omega), short u (by omega)]

end Sys2Proof.Laws
end

