-- ==== Sys2Proof/Machine/HostSyntax.lean ====
section
/-! DEFINITION. The text form of a host program (30_encoding.md R63): one statement a line, `;` starts a comment, decimal
and 0x numbers, case-insensitive mnemonics, `btoe` and `etob` for `enc` and `dec`. What R63 leaves open is log 14. -/

namespace Sys2Proof.Machine

/-- The pieces of a line. -/
inductive Lexeme where
  | word (w : List Char)
  | comma
  | text (t : List Char)
deriving DecidableEq, Repr

/-- Where the lexer stands: between pieces, inside a word, inside a quoted text (characters so far, last first). -/
inductive LexMode where
  | between
  | inWord (w : List Char)
  | inText (t : List Char)
deriving DecidableEq, Repr

/-- The pieces of a line; `none` for a quoted text that does not end. -/
def lexLine : LexMode → List Char → Option (List Lexeme)
  | .between, [] => some []
  | .inWord w, [] => some [.word w.reverse]
  | .inText _, [] => none
  | .between, c :: cs =>
    if c = ' ' ∨ c = '\t' ∨ c = '\r' then lexLine .between cs
    else if c = ';' then some []
    else if c = ',' then (lexLine .between cs).map fun l => .comma :: l
    else if c = '"' then lexLine (.inText []) cs
    else lexLine (.inWord [c]) cs
  | .inWord w, c :: cs =>
    if c = ' ' ∨ c = '\t' ∨ c = '\r' then (lexLine .between cs).map fun l => .word w.reverse :: l
    else if c = ';' then some [.word w.reverse]
    else if c = ',' then (lexLine .between cs).map fun l => .word w.reverse :: .comma :: l
    else if c = '"' then (lexLine (.inText []) cs).map fun l => .word w.reverse :: l
    else lexLine (.inWord (c :: w)) cs
  | .inText t, c :: cs =>
    if c = '"' then (lexLine .between cs).map fun l => .text t.reverse :: l else lexLine (.inText (c :: t)) cs

/-- A letter's lower case; every other character unchanged. -/
def lowerChar (c : Char) : Char := if 'A' ≤ c ∧ c ≤ 'Z' then Char.ofNat (c.toNat + 32) else c

/-- The value of a digit in base 10 or 16. -/
def digitValue (base : Nat) (c : Char) : Option Nat :=
  if '0' ≤ c ∧ c ≤ '9' then some (c.toNat - 48)
  else if base = 16 ∧ 'a' ≤ lowerChar c ∧ lowerChar c ≤ 'f' then some ((lowerChar c).toNat - 87)
  else none

/-- The value of a digit string, most significant digit first. -/
def digitsValue (base : Nat) (acc : Nat) : List Char → Option Nat
  | [] => some acc
  | c :: cs =>
    match digitValue base c with
    | some d => digitsValue base (acc * base + d) cs
    | none => none

/-- A decimal or `0x` hexadecimal number (30_encoding.md R63). -/
def parseNumber : List Char → Option Nat
  | '0' :: 'x' :: c :: cs => digitsValue 16 0 (c :: cs)
  | '0' :: 'X' :: c :: cs => digitsValue 16 0 (c :: cs)
  | c :: cs => digitsValue 10 0 (c :: cs)
  | [] => none

/-- A register's name (10_state.md R22). -/
def regName : Reg → List Char
  | .cmd => ['C', 'M', 'D']
  | .status => ['S', 'T', 'A', 'T', 'U', 'S']
  | .errCode => ['E', 'R', 'R', '_', 'C', 'O', 'D', 'E']
  | .errToken => ['E', 'R', 'R', '_', 'T', 'O', 'K', 'E', 'N']
  | .errAddr => ['E', 'R', 'R', '_', 'A', 'D', 'D', 'R']
  | .res => ['R', 'E', 'S']
  | .srcAddr => ['S', 'R', 'C', '_', 'A', 'D', 'D', 'R']
  | .srcLen => ['S', 'R', 'C', '_', 'L', 'E', 'N']
  | .dstAddr => ['D', 'S', 'T', '_', 'A', 'D', 'D', 'R']
  | .outLen => ['O', 'U', 'T', '_', 'L', 'E', 'N']
  | .blkW0 => ['B', 'L', 'K', '_', 'W', '0']
  | .blkW1 => ['B', 'L', 'K', '_', 'W', '1']
  | .blkW2 => ['B', 'L', 'K', '_', 'W', '2']
  | .wchr => ['W', 'C', 'H', 'R']
  | .wlen => ['W', 'L', 'E', 'N']
  | .idx0 => ['I', 'D', 'X', '0']
  | .idx1 => ['I', 'D', 'X', '1']
  | .idx2 => ['I', 'D', 'X', '2']
  | .idx3 => ['I', 'D', 'X', '3']
  | .idx4 => ['I', 'D', 'X', '4']
  | .idx5 => ['I', 'D', 'X', '5']

/-- The register a name stands for. -/
def parseReg (n : List Char) : Option Reg := Reg.all.find? fun r => regName r == n

/-- The commands without an operand, with the synonyms of DOC0 (30_encoding.md R63). -/
def plainCommands : List (List Char × CmdStmt) :=
  [(['n', 'o', 'p'], .instr .nop), (['p', 'a', 'r'], .instr .par), (['w', '2', 'i'], .instr .w2i),
    (['e', 'n', 'c', 'b'], .instr .encb), (['d', 'e', 'c', 'b'], .instr .decb), (['e', 'n', 'c'], .instr .enc),
    (['d', 'e', 'c'], .instr .dec), (['c', 'l', 'r'], .instr .clr), (['b', 't', 'o', 'e'], .instr .enc),
    (['e', 't', 'o', 'b'], .instr .dec), (['c', 'h', 'k'], .chk)]

/-- A command statement (30_encoding.md R63, R64). -/
def parseCommand : List Lexeme → Option CmdStmt
  | [.word m] => ((plainCommands.find? fun p => p.1 == m.map lowerChar).map fun p => p.2)
  | [.word m, .word x] =>
    match m.map lowerChar, parseNumber x with
    | ['i', '2', 'w'], some n => some (.instr (.i2w n))
    | ['s', 'l', 'i', 'c', 'e'], some n => some (.slice n)
    | ['p', 'a', 'i', 'r'], some n => some (.pair n)
    | _, _ => none
  | [.word m, .word x, .comma, .word y] =>
    match m.map lowerChar, parseNumber x, parseNumber y with
    | ['e', 'x', 't'], some a, some b => some (.instr (.ext a b))
    | _, _, _ => none
  | _ => none

/-- `, b0, b1, ...`: the byte operands of `dwb`, each after a comma. -/
def parseByteList : List Lexeme → Option (List Nat)
  | [] => some []
  | .comma :: .word x :: l =>
    match parseNumber x, parseByteList l with
    | some n, some ns => some (n :: ns)
    | _, _ => none
  | _ => none

/-- A statement that is no command statement (30_encoding.md R63, R64). -/
def parseOther (m : List Char) (args : List Lexeme) : Option Stmt :=
  match m, args with
  | ['w', 'r'], [.word r, .comma, .word v] =>
    match parseReg r, parseNumber v with
    | some r, some v => some (.wr r v)
    | _, _ => none
  | ['r', 'd'], [.word r] => (parseReg r).map .rd
  | ['d', 'w', 'b'], .word a :: l =>
    match parseNumber a, parseByteList l with
    | some a, some bs => some (.dwb a bs)
    | _, _ => none
  | ['t', 'w', 'b'], [.word a, .comma, .text t] => (parseNumber a).map fun a => .twb a (t.map Char.toNat)
  | ['d', 'r', 'b'], [.word a, .comma, .word n] =>
    match parseNumber a, parseNumber n with
    | some a, some n => some (.drb a n)
    | _, _ => none
  | ['t', 'r', 'b'], [.word a, .comma, .word n] =>
    match parseNumber a, parseNumber n with
    | some a, some n => some (.trb a n)
    | _, _ => none
  | ['w', 'a', 'i', 't'], [] => some .wait
  | ['r', 'u', 'n'], l => (parseCommand l).map .run
  | _, _ => none

/-- The statement of a line's pieces. -/
def parseStmt (l : List Lexeme) : Option Stmt :=
  match parseCommand l, l with
  | some c, _ => some (.cmd c)
  | none, .word m :: args => parseOther (m.map lowerChar) args
  | none, _ => none

/-- The statements of a line: none where it is blank or a comment. -/
def parseLine (line : List Char) : Option (List Stmt) :=
  match lexLine .between line with
  | some [] => some []
  | some l => (parseStmt l).map fun st => [st]
  | none => none

/-- The lines of a text. -/
def splitLines : List Char → List (List Char)
  | [] => [[]]
  | c :: cs =>
    if c = '\n' then [] :: splitLines cs
    else
      match splitLines cs with
      | [] => [[c]]
      | l :: ls => (c :: l) :: ls

/-- The statements of lines, one after the other. -/
def parseLines : List (List Char) → Option (List Stmt)
  | [] => some []
  | l :: ls =>
    match parseLine l, parseLines ls with
    | some st, some sts => some (st ++ sts)
    | _, _ => none

/-- A host program's text (30_encoding.md R63). -/
def parseProgram (text : List Char) : Option (List Stmt) := parseLines (splitLines text)

end Sys2Proof.Machine
end

