-- ==== Sys2Proof/Tests/Slice0.lean ====
section
/-! SUPPORT. Tests, with expected values from the spec's tables (each names its source), and for every obligation with
hypotheses a state and operands that meet them. -/

namespace Sys2Proof.Tests

open Sys2Proof Sys2Proof.Machine Sys2Proof.Laws

/-! ### Helpers -/

/-- The state after an outcome; `s` where it is no next state. -/
def nextOr (s : State) : Host.Outcome State Fault Refusal → State
  | .next t => t
  | .fault _ => s
  | .refused _ => s

/-- The fault of an outcome. -/
def faultOf : Host.Outcome State Fault Refusal → Option Fault
  | .next _ => none
  | .fault f => some f
  | .refused _ => none

/-- The error of a decoded group list. -/
def errorOf : Except ErrInfo (List Byte) → Option ErrInfo
  | .error e => some e
  | .ok _ => none

theorem eq_error {x : Except ErrInfo (List Byte)} {e : ErrInfo} (h : errorOf x = some e) : x = .error e := by
  cases x with
  | error => exact congrArg _ (Option.some.inj h)
  | ok => cases h

theorem eq_ok {x : Except ErrInfo (List Byte)} {l : List Byte} (h : x.toOption = some l) : x = .ok l := by
  cases x with
  | error => cases h
  | ok => exact congrArg _ (Option.some.inj h)

/-- The state after one step that carries out the command word `w`. -/
def afterWord (w : Nat) (s : State) : State := nextOr s (step (s.withFetchWord 32 w))

/-- The state after a command. -/
def after (i : Instr) (s : State) : State := nextOr s (exec i s)

theorem exec_after (i : Instr) (s : State) : exec i s = .next (after i s) := by
  rw [after, exec_eq]; rfl

def bytes (l : List Nat) : List Byte := l.map fun n => BitVec.ofNat 8 n

/-- State.reset with BLK_W0, BLK_W1 and BLK_W2 written. -/
def withBlk (w0 w1 w2 : Word) : State :=
  ((State.reset.writeReg .blkW0 w0).writeReg .blkW1 w1).writeReg .blkW2 w2

/-- State.reset with WCHR and WLEN written. -/
def withWord (chars len : Word) : State := { State.reset with wchr := chars, wlen := len }

/-- State.reset with the six indices written. -/
def withIndices (l : List Nat) : State := { State.reset with idx := Indices.ofValues l }

/-- State.reset with DMEM bytes at `src`, and the operands of an ENC of them. -/
def withData (src dst : Nat) (data : List Nat) : State :=
  { State.reset with
    dmem := Memory.writeBytes [] src (bytes data)
    srcAddr := BitVec.ofNat 32 src
    srcLen := BitVec.ofNat 32 data.length
    dstAddr := BitVec.ofNat 32 dst }

/-- State.reset with a text in TMEM at `src`, and the operands of a DEC of it. -/
def withText (src dst : Nat) (text : List Nat) : State :=
  { State.reset with
    tmem := Memory.writeBytes [] src (bytes text)
    srcAddr := BitVec.ofNat 32 src
    srcLen := BitVec.ofNat 32 text.length
    dstAddr := BitVec.ofNat 32 dst }

/-- STATUS, ERR_CODE, ERR_TOKEN and ERR_ADDR as the host reads them. -/
def record (s : State) : List Nat :=
  [Reg.status, .errCode, .errToken, .errAddr].map fun r => (s.regValue r).toNat

/-- "8 0 0 0 0 1". -/
def goodText : List Nat := [0x38, 0x20, 0x30, 0x20, 0x30, 0x20, 0x30, 0x20, 0x30, 0x20, 0x31]

/-- "8 0 0 0 0 0". -/
def badText : List Nat := [0x38, 0x20, 0x30, 0x20, 0x30, 0x20, 0x30, 0x20, 0x30, 0x20, 0x30]

/-! ### Well-formedness (30_encoding.md R58, R63) -/

theorem test_wf_refuses_start_128 : Instr.wellFormed (.ext 128 0) = false := by decide
theorem test_wf_refuses_len_32 : Instr.wellFormed (.ext 0 32) = false := by decide
theorem test_wf_refuses_index_2048 : Instr.wellFormed (.i2w 2048) = false := by decide
theorem test_wf_accepts_largest :
    (Instr.wellFormed (.ext 127 31) && Instr.wellFormed (.i2w 2047)) = true := by decide

/-! ### Decoding: words written out from the formats of 30_encoding.md R57 and the map R59 -/

theorem test_decode_nop : decode 0b0000_0000000000000000000000000000#32 = .ok .nop := by decide
theorem test_decode_par : decode 0b0010_0000000000000000000000000000#32 = .ok .par := by decide
theorem test_decode_w2i : decode 0b0100_0000000000000000000000000000#32 = .ok .w2i := by decide
theorem test_decode_encb : decode 0b0101_0000000000000000000000000000#32 = .ok .encb := by decide
theorem test_decode_decb : decode 0b0110_0000000000000000000000000000#32 = .ok .decb := by decide
theorem test_decode_enc : decode 0b0111_0000000000000000000000000000#32 = .ok .enc := by decide
theorem test_decode_dec : decode 0b1000_0000000000000000000000000000#32 = .ok .dec := by decide
theorem test_decode_clr : decode 0b1001_0000000000000000000000000000#32 = .ok .clr := by decide
/-- OP 0x1, reserved [27:13], LEN 31, reserved [7], START 42 (EXT-21). -/
theorem test_decode_ext : decode 0b0001_000000000000000_11111_0_0101010#32 = .ok (.ext 42 31) := by decide
/-- OP 0x3, reserved [27:11], INDEX 0x7FC (I2W-8). -/
theorem test_decode_i2w : decode 0b0011_00000000000000000_11111111100#32 = .ok (.i2w 0x7FC) := by decide

/-- EXT-23, EXT-24, I2W-10, CTL-5, CTL-6, CTL-7. -/
theorem test_decode_reserved_bits :
    [0x10000080#32, 0x10002000#32, 0x30000800#32, 0x00000001#32, 0x20000001#32, 0x9FFFFFFF#32].all
      (fun w => decide (decode w = .error .reservedBits)) = true := by decide
/-- CTL-3, CTL-4 and the opcodes between. -/
theorem test_decode_reserved_opcodes :
    [0xA0000000#32, 0xB0000000#32, 0xC0000000#32, 0xD0000000#32, 0xE0000000#32, 0xF0000000#32].all
      (fun w => decide (decode w = .error .reservedOpcode)) = true := by decide
/-- EXT-22 and I2W-9. -/
theorem test_encode_ext : encode (.ext 127 31) = 0x10001F7F#32 := by decide
theorem test_encode_i2w : encode (.i2w 2047) = 0x300007FF#32 := by decide
/-- EXT-10, by the host's entry to the decoder. -/
theorem test_decodeTableWord : decodeTableWord 32 0x10001F29 = some (.ext 41 31) := by decide
theorem test_decodeTableWord_illegal : decodeTableWord 32 0xA0000000 = none := by decide

/-! ### One step of each command -/

/-- CTL-1. -/
theorem test_nop :
    record (afterWord 0x00000000 (State.raiseErr State.reset ⟨.bounds, 1, 2⟩)) = [2, 0, 0, 0] := by decide +kernel
/-- EXT-10: a field that ends at bit 71. -/
theorem test_ext : (afterWord 0x10001F29 (withBlk 0x01234567 0x89ABCDEF 0)).res = 0x2BCDEF00 := by decide +kernel
/-- EXT-21: start + len = 73. -/
theorem test_ext_bounds : record (afterWord 0x10001F2A (withBlk 0x01234567 0x89ABCDEF 0)) = [6, 5, 0, 0] := by
  decide +kernel
/-- PAR-11. -/
theorem test_par : (afterWord 0x20000000 (withBlk 0xCCAC2AED 0x591056BE 0)).res = 1 := by decide +kernel
/-- PAR-16: byte 8 does not count. -/
theorem test_par_byte8 : (afterWord 0x20000000 (withBlk 0x01000000 0 0xFF000000)).res = 1 := by decide +kernel
/-- I2W-5. -/
theorem test_i2w :
    (afterWord 0x300000D1 State.reset).wchr = 0x44310000 ∧ (afterWord 0x300000D1 State.reset).wlen = 2 := by
  decide +kernel
/-- W2I-4: only the first WLEN codes count. -/
theorem test_w2i : (afterWord 0x40000000 (withWord 0x37464300 2)).res = 127 := by decide +kernel
/-- W2I-10. -/
theorem test_w2i_lexical : record (afterWord 0x40000000 (withWord 0x37464300 0xFFFFFFFF)) = [6, 1, 0, 0] := by
  decide +kernel
/-- ENCB-7: BLKB[8], the indices, RES. -/
theorem test_encb :
    ((afterWord 0x50000000 (withBlk 0xCCAC2AED 0x591056BE 0xFF000000)).idx.values,
      (afterWord 0x50000000 (withBlk 0xCCAC2AED 0x591056BE 0xFF000000)).blk.b8) =
      ([1637, 778, 1498, 1425, 43, 761], 0x40#8) := by decide +kernel
/-- DECB-12: BLK and RES are written although the command raises. -/
theorem test_decb_checksum :
    (record (afterWord 0x60000000 (withIndices [1024, 0, 0, 0, 0, 1])),
      (afterWord 0x60000000 (withIndices [1024, 0, 0, 0, 0, 1])).blk.bytes,
      (afterWord 0x60000000 (withIndices [1024, 0, 0, 0, 0, 1])).res) =
      ([6, 3, 5, 0], bytes [0x80, 0, 0, 0, 0, 0, 0, 0, 0x40], 2#32) := by decide +kernel
/-- DECB-7. -/
theorem test_decb :
    (afterWord 0x60000000 (withIndices [9, 209, 719, 154, 1510, 1980])).blk.bytes =
      bytes [0x01, 0x23, 0x45, 0x67, 0x89, 0xAB, 0xCD, 0xEF, 0] := by decide +kernel
/-- ENC-3. -/
theorem test_enc :
    (afterWord 0x70000000 (withData 0 0 [0xFF])).tmem =
      Memory.writeBytes [] 0
        (bytes [0x37, 0x46, 0x38, 0x20, 0x30, 0x20, 0x30, 0x20, 0x30, 0x20, 0x30, 0x20, 0x30]) := by decide +kernel
/-- ENC-15: the sum of SRC_ADDR and SRC_LEN does not wrap. -/
theorem test_enc_range : record (afterWord 0x70000000
    { State.reset with srcAddr := 0xFFFFFFFF, srcLen := 2 }) = [6, 6, 0, 0] := by decide +kernel
/-- DEC-29: the reported address is a TMEM offset. -/
theorem test_dec_checksum : record (afterWord 0x80000000 (withText 0x20 0 badText)) = [6, 3, 5, 42] := by
  decide +kernel
/-- DEC-1. -/
theorem test_dec :
    (afterWord 0x80000000 (withText 0 0 goodText)).dmem =
      Memory.writeBytes [] 0 (bytes [0x01, 0, 0, 0, 0, 0, 0, 0]) := by decide +kernel
/-- CTL-2. -/
theorem test_clr :
    let s := afterWord 0x90000000 { withData 5 0 [0x12] with res := 0x7FFFFFFF, blk := ⟨255, 255, 0, 0, 0, 0, 0, 0, 0⟩ }
    Reg.all.map s.regValue = 0 :: 2 :: List.replicate 19 0 ∧ s.dmem = [(5, 0x12)] := by decide +kernel
/-- CTL-7. -/
theorem test_illegal :
    (record (afterWord 0x9FFFFFFF (withWord 5 6)), (afterWord 0x9FFFFFFF (withWord 5 6)).wchr) =
      ([6, 7, 0, 0], 5#32) := by decide +kernel

/-! ### The host port -/

/-- REG-3 and REG-4. -/
theorem test_register_masks :
    (State.reset.writeReg .blkW2 0x12345678).regValue .blkW2 = 0x12000000 ∧
      (State.reset.writeReg .idx0 0x0000FFFF).regValue .idx0 = 0x000007FF := by decide +kernel
/-- REG-6 and REG-7. -/
theorem test_reserved_offsets :
    State.reset.readOffset 0x54 = 0 ∧ State.reset.readOffset 0xFC = 0 ∧
      Reg.all.map (State.reset.writeOffset 0x80 1).regValue = List.replicate 21 0 := by decide +kernel
/-- REG-10: a write to CMD while BUSY = 1. -/
theorem test_cmd_write_while_busy :
    let s := nextOr State.reset (busWriteWord 0 0x90000000 (State.reset.withFetchWord 32 0))
    s.hostProtocol = true ∧ s.pending = some 0 := by decide +kernel
/-- REG-11. -/
theorem test_enc_unwritten : (after .enc { State.reset with srcLen := 1 }).uninitRead = true := by
  have : ∀ (text : List Byte) (s : State), (encCommit text s).complete.uninitRead = s.uninitRead := by
    intro text s; unfold encCommit; split <;> rfl
  have e : after .enc { State.reset with srcLen := 1 } = (encBody { State.reset with srcLen := 1 }).complete := rfl
  rw [e, encBody, if_neg (by decide), this]; rfl
/-- A host read of an unwritten byte (70_reset_and_hazards.md R171). -/
theorem test_host_read_unwritten :
    let s := nextOr State.reset (busReadByte 0x100 State.reset)
    s.uninitRead = true ∧ s.freeCount = 1 ∧ s.readLog.length = 1 ∧ s.dmem = [] := by decide +kernel
/-- 70_reset_and_hazards.md R174(c). -/
theorem test_refused :
    step (State.powerOn { Config.testFixture with dict := [] }) = .refused .configRefused := rfl
/-- 20_memory.md R43: the platform has let DMEM overlap the register window (log 4). -/
theorem test_overlap_faults :
    faultOf (busReadWord 4 { State.reset with cfg := { Config.testFixture with dmemBase := 0 } }) =
      some (.overlappingWindows 4) := by decide +kernel

/-! ### Host programs (30_encoding.md R63, R64, R65) -/

theorem test_parse_ext :
    parseProgram ['r', 'u', 'n', ' ', 'E', 'X', 'T', ' ', '0', 'x', '4', '0', ',', '2', ' ', ';', 'c', '\n'] =
      some [.run (.instr (.ext 64 2))] := by decide +kernel
theorem test_parse_twb :
    parseProgram ['t', 'w', 'b', ' ', '1', '0', ',', ' ', '"', '1', ';', '"'] = some [.twb 10 [0x31, 0x3B]] := by
  decide +kernel
/-- `slice 2` is 0x10000B16. -/
theorem test_assemble_slice :
    assemble Config.testFixture (.run (.slice 2)) = some [.writeWord 0 0x10000B16, .poll] := by decide +kernel
theorem test_assemble_refuses :
    assemble Config.testFixture (.cmd (.slice 6)) = none ∧ assemble Config.testFixture (.dwb 0 [256]) = none ∧
      assemble Config.testFixture (.wr .wlen (2 ^ 32)) = none := by decide +kernel

/-! ### Witnesses: the hypotheses of each obligation can be met -/

/-- The eight bytes 01 00 .. 00, written at 0, and the operands of their ENC. -/
def encState : State := withData 0 0 [1, 0, 0, 0, 0, 0, 0, 0]

/-- "8 0 0 0 0 1" at TMEM 0, and the operands of its DEC. -/
def decState : State := withText 0 0 goodText

/-- A command word pending, three host turns away from its CORE step. -/
def pendingState (w : Word) : State := { State.reset with pending := some w, delay := 3, mustPoll := true }

/-- A configuration the spec allows. -/
theorem cfg_ok : configOK State.reset.cfg = true := testFixture_ok

theorem windows_ok : windowsApart State.reset.cfg = true := by decide

theorem witness_DecodeOfEncode : Instr.wellFormed (.ext 127 31) = true ∧ Instr.wellFormed (.i2w 2047) = true := by
  decide
theorem witness_EncodeOfDecode : decode 0x10001F7F = .ok (.ext 127 31) := by decide
theorem witness_CommandStatementWritesItsWord :
    commandOf (.slice 5) = some (.ext 55 11) ∧ commandOf (.pair 31) = some (.ext 62 2) ∧
      commandOf (.instr (.i2w 2047)) = some (.i2w 2047) := by decide
theorem witness_ResetClearsRegisters :
    (pendingState 0x70000000).pending.map decode ≠ some (.ok .dec) ∧
      (pendingState 0x80000000).pending.map decode ≠ some (.ok .enc) := by decide +kernel
theorem witness_ResetForgetsAnAbandonedOutput :
    (pendingState 0x70000000).pending = some 0x70000000 ∧ decode 0x70000000 = .ok .enc ∧
      (pendingState 0x80000000).pending = some 0x80000000 ∧ decode 0x80000000 = .ok .dec := by decide +kernel
/-- A configuration on each side: too small a DMEM, too large a TMEM, and the fixture. -/
theorem witness_RefusedConfigurationDoesNotRun :
    configOK { Config.testFixture with dmemSize := 0 } = false ∧
      configOK { Config.testFixture with tmemSize := 2 ^ 31 + 1 } = false ∧ configOK Config.testFixture = true :=
  ⟨by simp [configOK, sizeOK], by simp [configOK, sizeOK], testFixture_ok⟩
theorem witness_StepRunsDecodedCommand_due :
    (State.reset.withFetchWord 32 0x20000000).refused = false ∧
      (State.reset.withFetchWord 32 0x20000000).pending = some 0x20000000 ∧
      (State.reset.withFetchWord 32 0x20000000).delay = 0 ∧ decode 0x20000000 = .ok .par := by decide
theorem witness_StepRunsDecodedCommand_noHost :
    (pendingState 0x20000000).refused = false ∧ (pendingState 0x20000000).pending = some 0x20000000 ∧
      (pendingState 0x20000000).inputs = [] ∧ decode 0x20000000 = .ok .par := by decide
theorem witness_IllegalWordRaisesIllegalCmd :
    (pendingState 0xA0000000).refused = false ∧ (pendingState 0xA0000000).pending = some 0xA0000000 ∧
      (pendingState 0xA0000000).inputs = [] ∧ ∀ i : Instr, i.wellFormed = true → encode i ≠ 0xA0000000 := by
  refine ⟨rfl, rfl, rfl, ?_⟩
  have key : ∀ i : Instr, EncodedWord.Statement i → opcode i ≤ 9 → i.wellFormed = true → encode i ≠ 0xA0000000 := by
    intro i h ho hw e
    have h1 := (h hw).1
    have h2 := (h hw).2
    rw [e] at h2
    have : (0xA0000000 : Word).toNat = 2 ^ 28 * 10 := by decide
    omega
  intro i
  cases i with
  | nop => exact key _ EncodedWord.nop (by decide)
  | ext a b => exact key _ (EncodedWord.ext a b) (by simp [opcode])
  | par => exact key _ EncodedWord.par (by decide)
  | i2w n => exact key _ (EncodedWord.i2w n) (by simp [opcode])
  | w2i => exact key _ EncodedWord.w2i (by decide)
  | encb => exact key _ EncodedWord.encb (by decide)
  | decb => exact key _ EncodedWord.decb (by decide)
  | enc => exact key _ EncodedWord.enc (by decide)
  | dec => exact key _ EncodedWord.dec (by decide)
  | clr => exact key _ EncodedWord.clr (by decide)
theorem witness_StepKeepsInvariant :
    (encState.withFetchWord 32 0x70000000).Inv ∧
      step (encState.withFetchWord 32 0x70000000) = .next (afterWord 0x70000000 encState) := by
  refine ⟨⟨?_, ?_, fun _ => cfg_ok, ?_, ?_⟩, rfl⟩
  · exact writeBytes_good _ (empty_good _) (by decide)
  · exact empty_good _
  · exact ⟨by decide, fun _ => ⟨rfl, rfl⟩⟩
  · intro _; exact ⟨rfl, rfl⟩
theorem witness_MarksAreNeverCleared :
    ∃ t, step { State.reset with hostProtocol := true, uninitRead := true } = .next t := ⟨_, rfl⟩
theorem witness_RomNeverChanges : step (pendingState 0x90000000) = .next (nextOr State.reset
    (step (pendingState 0x90000000))) := rfl
theorem witness_OnlyEncAndDecWriteBuffers : exec .enc encState = .next (after .enc encState) ∧ Instr.enc ≠ .dec ∧
    exec .dec decState = .next (after .dec decState) ∧ Instr.dec ≠ .enc := by
  exact ⟨rfl, by decide, rfl, by decide⟩
theorem witness_CommandsLeaveOtherRegisters : exec .par encState = .next (after .par encState) ∧ Instr.par ≠ .clr ∧
    exec (.i2w 5) encState = .next (after (.i2w 5) encState) ∧ Instr.i2w 5 ≠ .clr := by
  exact ⟨rfl, by decide, rfl, by decide⟩
theorem witness_WaitSeesTheCommandCompleted :
    let s : State := { pendingState 0x20000000 with inputs := [.poll, .readWord 0x14] }
    s.refused = false ∧ s.pending = some 0x20000000 ∧ decode 0x20000000 = .ok .par ∧
      s.inputs = .poll :: [.readWord 0x14] ∧ windowsApart s.cfg = true := by
  exact ⟨rfl, rfl, by decide, rfl, windows_ok⟩
theorem witness_CmdWriteIssues :
    let s : State := { State.reset with inputs := [.writeWord 0 0x20000000], schedule := [2] }
    s.refused = false ∧ s.pending = none ∧ s.mustPoll = false ∧ windowsApart s.cfg = true ∧
      s.inputs = .writeWord s.cfg.regBase 0x20000000 :: [] := ⟨rfl, rfl, rfl, windows_ok, rfl⟩
theorem witness_RegisterWriteStoresItsBits : (Reg.blkW2 ≠ .cmd ∧ Reg.res ≠ .cmd) ∧
    State.reset.locked = false ∧ windowsApart State.reset.cfg = true := by decide
theorem witness_ReservedReadsZeroAndIgnoresWrites : 0x54 ≤ 0x54 ∧ 0x54 ≤ 0xFC ∧
    Reg.outLen ∈ [Reg.status, .errCode, .errToken, .errAddr, .res, .outLen] ∧
    (0x12345678 : Word) &&& usedBits .blkW2 = 0x12FFFFFF &&& usedBits .blkW2 ∧
    (State.reset.locked = false ∧ windowsApart State.reset.cfg = true ∧ (0x54 % 4 = 0 ∧ 0x54 < 0x100) ∧
      (0xFC % 4 = 0 ∧ 0xFC < 0x100) ∧ 0x24 % 4 = 0 ∧ 0x24 ∈ [0x04, 0x08, 0x0C, 0x10, 0x14, 0x24]) := by decide
theorem witness_StatusReadsItsFields : 3 ≤ 3 := by decide
theorem witness_HostReadsHaveNoSideEffect :
    (∃ t, busReadWord 4 State.reset = .next t) ∧ ∃ t, busReadByte 0x1FF State.reset = .next t := by
  have h1 : busTarget State.reset.cfg 4 4 = .reg 4 := by decide
  have h2 : busTarget State.reset.cfg 0x1FF 1 = .dmem 0xFF := by decide
  exact ⟨⟨State.reset.readStatus, by simp only [busReadWord, h1]; rfl⟩,
    ⟨State.reset.hostReadByte none, by simp only [busReadByte, h2]; rfl⟩⟩
theorem witness_HostByteWriteChangesOneByte : State.reset.locked = false ∧ windowsApart State.reset.cfg = true ∧
    0 < State.reset.cfg.dmemSize ∧ 255 < State.reset.cfg.dmemSize ∧ 255 < State.reset.cfg.tmemSize := by decide
theorem witness_HostReadsReturnTheValue : encState.locked = false ∧ windowsApart encState.cfg = true ∧
    (0xFC < 256 ∧ 0xFC % 4 = 0) ∧ (7 < encState.cfg.dmemSize ∧ encState.dmem.read? 7 = some 0) ∧
    decState.locked = false ∧ windowsApart decState.cfg = true ∧
    (10 < decState.cfg.tmemSize ∧ decState.tmem.read? 10 = some 0x31) ∧
    (let s := State.raiseErr State.reset ⟨.illegalCmd, 0, 0⟩;
      s.locked = false ∧ windowsApart s.cfg = true ∧ s.errCode = .illegalCmd) := by decide +kernel
theorem witness_AccessWhileLockedIsAViolation_busy :
    let s := pendingState 0x20000000
    s.locked = true ∧ windowsApart s.cfg = true ∧ accessOf s.cfg (.readByte 0x1FF) = some (0x1FF, 1) ∧
      busTarget s.cfg 0x1FF 1 ≠ .outside ∧ isStatusRead s.cfg (.readByte 0x1FF) = false := by decide
theorem witness_AccessWhileLockedIsAViolation_afterwards :
    let s : State := { State.reset with mustPoll := true }
    s.locked = true ∧ windowsApart s.cfg = true ∧ accessOf s.cfg (.readWord 0x14) = some (0x14, 4) ∧
      busTarget s.cfg 0x14 4 ≠ .outside ∧ isStatusRead s.cfg (.readWord 0x14) = false := by decide
/-- A STATUS read in the window of R172, while BUSY = 1 and afterwards, and one outside it. -/
theorem witness_AccessWhileLockedIsAViolation_status :
    (windowsApart (pendingState 0x20000000).cfg = true ∧ (pendingState 0x20000000).pending ≠ none) ∧
      (let s : State := { State.reset with mustPoll := true };
        windowsApart s.cfg = true ∧ s.locked = true ∧ s.pending = none) ∧
      windowsApart State.reset.cfg = true ∧ State.reset.locked = false := by decide
/-- A misaligned register access, one that runs out of the window, a byte access, a word access to a buffer, and one of
two bytes. -/
theorem witness_MisfitAccessIsAViolation :
    let c := State.reset.cfg
    windowsApart c = true ∧
      (touches c.regBase 256 2 4 = true ∧ ¬ (c.regBase ≤ 2 ∧ (2 - c.regBase) % 4 = 0)) ∧
      (touches c.regBase 256 0xFE 4 = true ∧ ¬ (c.regBase ≤ 0xFE ∧ (0xFE - c.regBase) % 4 = 0)) ∧
      touches c.regBase 256 0xFF 1 = true ∧ touches c.dmemBase c.dmemSize 0x100 4 = true ∧
      touches c.tmemBase c.tmemSize 0x2FF 4 = true ∧ touches c.regBase 256 0 2 = true ∧
      touches c.dmemBase c.dmemSize 0x100 2 = true ∧ touches c.tmemBase c.tmemSize 0x2FF 2 = true := by decide
theorem witness_AccessOutsideChangesNothing :
    let c := State.reset.cfg
    accessOf c (.readWord 0x300) = some (0x300, 4) ∧
      touches c.regBase 256 0x300 4 = false ∧ touches c.dmemBase c.dmemSize 0x300 4 = false ∧
      touches c.tmemBase c.tmemSize 0x300 4 = false := by decide
theorem witness_NopEndsWithStatusTwo : (0 < 1 ∧ 1 < 2 ^ 28) ∧ 0 < 2 ^ 28 - 1 ∧
    (State.raiseErr State.reset ⟨.bounds, 1, 2⟩).refused = false := by decide
/-- Both sides of the BOUNDS check (EXT-18 and EXT-20). -/
theorem witness_ExtReadsTheField : Instr.wellFormed (.ext 72 0) = true ∧ 72 + 0 ≤ 72 ∧
    Instr.wellFormed (.ext 73 0) = true ∧ ¬ 73 + 0 ≤ 72 := by decide
theorem witness_ChecksumCountsBits : (bytes [1, 2, 3, 4, 5, 6, 7, 8]).length = 8 := by decide
theorem witness_ChecksumSeesEverySingleFlip : 8 ≤ (bytes [1, 2, 3, 4, 5, 6, 7, 8]).length ∧ 0 < 64 ∧ 63 < 64 := by
  decide
theorem witness_IndexToWordWritesTheEntry : configOK State.reset.cfg = true ∧ Instr.wellFormed (.i2w 0) = true ∧
    Instr.wellFormed (.i2w 2047) = true := ⟨cfg_ok, by decide, by decide⟩
/-- LEXICAL at lengths 0 and 5, a match at length 1, and no match at length 4 (W2I-9, W2I-8, W2I-5, W2I-11). -/
theorem witness_WordToIndexLooksUp :
    configOK State.reset.cfg = true ∧ (withWord 0 0).wlen.toNat = 0 ∧ 4 < (withWord 0 5).wlen.toNat ∧
      (State.reset.cfg.dict[0]? = some [0x30] ∧
        foldWord [0x30] = foldWord ((wordChars (withWord 0x30000000 1).wchr).take (withWord 0x30000000 1).wlen.toNat)) ∧
      ∀ e ∈ State.reset.cfg.dict, foldWord e ≠
        foldWord ((wordChars (withWord 0x5A5A5A5A 4).wchr).take (withWord 0x5A5A5A5A 4).wlen.toNat) :=
  ⟨cfg_ok, by decide, by decide, by decide +kernel, by decide +kernel⟩
theorem witness_IndexWordRoundTrip : configOK State.reset.cfg = true ∧ 2047 ≤ 2047 := ⟨cfg_ok, by decide⟩
/-- DECB-1. -/
theorem witness_EncbUndoesDecb :
    let s := withIndices [8, 0, 0, 0, 0, 1]
    exec .decb s = .next (after .decb s) ∧ checksum (after .decb s).blk.bytes = s.idx.i5.toNat % 4 :=
  ⟨exec_after _ _, by decide +kernel⟩
/-- ENC-11; ENC-12; ENC-10. -/
theorem witness_EncWritesTheText :
    (let s : State := { State.reset with srcAddr := 250, srcLen := 8 };
      s.cfg.dmemSize < s.srcAddr.toNat + s.srcLen.toNat) ∧
    (let s := withData 0 240 [255, 255, 255, 255, 255, 255, 255, 255];
      s.srcAddr.toNat + s.srcLen.toNat ≤ s.cfg.dmemSize ∧
        s.encSource = (bytes [255, 255, 255, 255, 255, 255, 255, 255]).map some ∧
        s.cfg.tmemSize < s.dstAddr.toNat + (encodeText s.cfg.dict (s.readBytes s.encSource)).length) ∧
    (let s := withData 0 245 [0, 0, 0, 0, 0, 0, 0, 0];
      s.srcAddr.toNat + s.srcLen.toNat ≤ s.cfg.dmemSize ∧
        s.encSource = (bytes [0, 0, 0, 0, 0, 0, 0, 0]).map some ∧
        s.dstAddr.toNat + (encodeText s.cfg.dict (s.readBytes s.encSource)).length ≤ s.cfg.tmemSize) := by
  decide +kernel
theorem witness_TextHasTheStatedShape : configOK State.reset.cfg = true ∧ bytes [] = [] ∧ bytes [0] ≠ [] :=
  ⟨cfg_ok, rfl, by decide⟩
/-- DEC-26; DEC-6; DEC-27. -/
theorem witness_DecChecksThenCommits_range :
    (let s : State := { State.reset with srcAddr := 250, srcLen := 11 };
      s.cfg.tmemSize < s.srcAddr.toNat + s.srcLen.toNat) ∧
    (let s := withText 0 0 (badText ++ [0x20]);
      s.srcAddr.toNat + s.srcLen.toNat ≤ s.cfg.tmemSize ∧ s.decSource = (bytes (badText ++ [0x20])).map some ∧
        (tokenize (s.readBytes s.decSource) s.srcAddr.toNat).length % 6 ≠ 0) ∧
    (let s := withText 0 249 badText;
      s.srcAddr.toNat + s.srcLen.toNat ≤ s.cfg.tmemSize ∧
        (tokenize (s.readBytes s.decSource) s.srcAddr.toNat).length % 6 = 0 ∧
        s.cfg.dmemSize < s.dstAddr.toNat + 8 * ((tokenize (s.readBytes s.decSource) s.srcAddr.toNat).length / 6)) := by
  decide +kernel
/-- DEC-2 with DST_ADDR = 248, and DEC-1. -/
theorem witness_DecChecksThenCommits_groups :
    (let s := withText 0 248 badText;
      let toks := tokenize (s.readBytes s.decSource) s.srcAddr.toNat;
      toks.length % 6 = 0 ∧ s.dstAddr.toNat + 8 * (toks.length / 6) ≤ s.cfg.dmemSize ∧
        decodeGroups s.cfg.dict 0 toks = .error ⟨.checksum, 5, 10⟩) ∧
    (let toks := tokenize (decState.readBytes decState.decSource) decState.srcAddr.toNat;
      toks.length % 6 = 0 ∧ decState.dstAddr.toNat + 8 * (toks.length / 6) ≤ decState.cfg.dmemSize ∧
        decodeGroups decState.cfg.dict 0 toks = .ok (bytes [1, 0, 0, 0, 0, 0, 0, 0])) := by
  refine ⟨⟨?_, ?_, eq_error ?_⟩, ?_, ?_, eq_ok ?_⟩ <;> decide +kernel
theorem witness_TokensAreTheStretchesBetweenSeparators :
    bytes [] = [] ∧ bytes goodText ≠ [] ∧ (⟨[0x31], 10⟩ : Token) ∈ tokenize (bytes goodText) 0 ∧
      (tokenize (bytes goodText) 0)[4]? = some ⟨[0x30], 8⟩ ∧
      (tokenize (bytes goodText) 0)[4 + 1]? = some ⟨[0x31], 10⟩ := by decide +kernel
/-- The tokens of "8 0 0 0 0 1" (DEC-1). -/
theorem witness_GoodGroupsDecode :
    let toks := tokenize (bytes goodText) 0
    toks.length % 6 = 0 ∧ (∀ tok ∈ toks, tokenGood Config.testFixture.dict tok = true) ∧
      ∀ g < toks.length / 6, groupVerifies Config.testFixture.dict toks g = true := by decide +kernel
/-- "0  0 0 0 0": token 1 is empty (DEC-8). -/
theorem witness_FirstBadTokenIsReported :
    let toks := tokenize (bytes [0x30, 0x20, 0x20, 0x30, 0x20, 0x30, 0x20, 0x30, 0x20, 0x30]) 0
    toks.length % 6 = 0 ∧ toks[1]? = some ⟨[], 2⟩ ∧ tokenGood Config.testFixture.dict ⟨[], 2⟩ = false ∧
      (∀ j tok', j < 1 → toks[j]? = some tok' → tokenGood Config.testFixture.dict tok' = true) ∧
      ∀ g < 1 / 6, groupVerifies Config.testFixture.dict toks g = true := by
  refine ⟨by decide +kernel, by decide +kernel, by decide +kernel, ?_, by decide +kernel⟩
  intro j tok' hj h
  have e : j = 0 := by omega
  subst e
  have h0 : (tokenize (bytes [0x30, 0x20, 0x20, 0x30, 0x20, 0x30, 0x20, 0x30, 0x20, 0x30]) 0)[0]? =
      some ⟨[0x30], 0⟩ := by decide +kernel
  rw [h0] at h
  cases h
  decide +kernel
/-- "8 0 0 0 0 0": group 0 does not verify (DEC-2). -/
theorem witness_FirstBadGroupIsReported :
    let toks := tokenize (bytes badText) 0
    toks.length % 6 = 0 ∧ toks[6 * 0 + 5]? = some ⟨[0x30], 10⟩ ∧
      groupVerifies Config.testFixture.dict toks 0 = false ∧
      (∀ j tok', j ≤ 6 * 0 + 5 → toks[j]? = some tok' → tokenGood Config.testFixture.dict tok' = true) ∧
      ∀ g' < 0, groupVerifies Config.testFixture.dict toks g' = true := by
  refine ⟨by decide +kernel, by decide +kernel, by decide +kernel, ?_, fun g' h => absurd h (Nat.not_lt_zero g')⟩
  intro j tok' _ h
  have hall : ∀ tok ∈ tokenize (bytes badText) 0, tokenGood Config.testFixture.dict tok = true := by decide +kernel
  exact hall tok' (List.mem_of_getElem? h)
/-- "a 0 0 0 0 0" and "A 0 0 0 0 0". -/
theorem witness_DecIgnoresCase :
    let s := withText 0 0 (0x61 :: badText.drop 1)
    let m := Memory.writeBytes [] 0 (bytes (0x41 :: badText.drop 1))
    s.decSource = (bytes (0x61 :: badText.drop 1)).map some ∧
      State.decSource { s with tmem := m } = (bytes (0x41 :: badText.drop 1)).map some ∧
      foldWord (bytes (0x61 :: badText.drop 1)) = foldWord (bytes (0x41 :: badText.drop 1)) := by decide +kernel
theorem witness_EncodeDecodeRoundTrip :
    configOK encState.cfg = true ∧ encState.encSource = (bytes [1, 0, 0, 0, 0, 0, 0, 0]).map some ∧
      encState.srcAddr.toNat + encState.srcLen.toNat ≤ encState.cfg.dmemSize ∧
      encState.dstAddr.toNat + (encodeText encState.cfg.dict (bytes [1, 0, 0, 0, 0, 0, 0, 0])).length ≤
        encState.cfg.tmemSize ∧
      (248 : Word).toNat + 8 * (((bytes [1, 0, 0, 0, 0, 0, 0, 0]).length + 7) / 8) ≤ encState.cfg.dmemSize :=
  ⟨cfg_ok, by decide +kernel, by decide +kernel, by decide +kernel, by decide +kernel⟩
/-- ENC-14 and DEC-2. -/
theorem witness_FailedBufferCommandWritesNoBuffer :
    (let s : State := { State.reset with srcAddr := 257 };
      s.err = false ∧ exec .enc s = .next (after .enc s) ∧ (after .enc s).err = true) ∧
    (let s := withText 0 0 badText;
      s.err = false ∧ exec .dec s = .next (after .dec s) ∧ (after .dec s).err = true) :=
  ⟨⟨rfl, exec_after _ _, by decide +kernel⟩, rfl, exec_after _ _, by decide +kernel⟩
theorem witness_BufferCommandsIgnoreTheBlockRegisters :
    exec .enc encState = .next (after .enc encState) ∧ exec .dec decState = .next (after .dec decState) :=
  ⟨exec_after _ _, exec_after _ _⟩
/-- EXT-20, W2I-9, DECB-9. -/
theorem witness_CommandsRaiseTheirOwnCodes :
    State.reset.err = false ∧
      (exec (.ext 73 0) State.reset = .next (after (.ext 73 0) State.reset) ∧
        (after (.ext 73 0) State.reset).err = true) ∧
      (exec .w2i State.reset = .next (after .w2i State.reset) ∧ (after .w2i State.reset).err = true) ∧
      (withIndices [0, 0, 0, 0, 0, 2]).err = false ∧
      exec .decb (withIndices [0, 0, 0, 0, 0, 2]) = .next (after .decb (withIndices [0, 0, 0, 0, 0, 2])) ∧
      (after .decb (withIndices [0, 0, 0, 0, 0, 2])).err = true :=
  ⟨rfl, ⟨exec_after _ _, by decide +kernel⟩, ⟨exec_after _ _, by decide +kernel⟩, rfl, exec_after _ _,
    by decide +kernel⟩
/-- An unwritten byte at the end of each buffer. -/
theorem witness_UnwrittenSourceSetsTheMark : State.reset.locked = false ∧ windowsApart State.reset.cfg = true ∧
    (255 < State.reset.cfg.dmemSize ∧ State.reset.dmem.read? 255 = none) ∧
    (255 < State.reset.cfg.tmemSize ∧ State.reset.tmem.read? 255 = none) := by decide
/-- The host's turn with nothing pending, with a command pending and a delay left, and with no action left. -/
theorem witness_HostTakesItsNextAction :
    (let s : State := { State.reset with inputs := [.poll] };
      s.refused = false ∧ s.inputs = .poll :: [] ∧ s.pending = none) ∧
    (let s : State := { pendingState 0x20000000 with inputs := [.reset] };
      s.refused = false ∧ s.inputs = .reset :: [] ∧ s.pending = some 0x20000000 ∧ s.delay = 2 + 1) ∧
    State.reset.refused = false ∧ State.reset.pending = none ∧ State.reset.inputs = [] := by decide

end Sys2Proof.Tests
end

