-- ==== Sys2Proof/Proofs/Turns.lean ====
section
/-! PROOFS. Whose turn a step is: what `step` does with the mark REFUSED, with nothing pending, and with a command pending
and a delay left (00_scope.md R3, 30_encoding.md R56, 70_reset_and_hazards.md R178). -/

namespace Sys2Proof.Proofs

open Sys2Proof Sys2Proof.Machine

theorem step_of_refused {s : State} (hr : s.refused = true) : step s = .refused .configRefused := by
  rw [step, hr]

theorem step_of_idle {s : State} (hr : s.refused = false) (hp : s.pending = none) : step s = idleTurn s := by
  rw [step, hr, hp]

theorem step_of_pending {s : State} {w : Word} (hr : s.refused = false) (hp : s.pending = some w) :
    step s = busyTurn w s := by
  rw [step, hr, hp]

theorem idleTurn_cons {s : State} {op : HostOp} {rest : List HostOp} (hi : s.inputs = op :: rest) :
    idleTurn s = hostTurn op rest s := by
  rw [idleTurn, hi]

theorem idleTurn_nil {s : State} (hi : s.inputs = []) : idleTurn s = .next s := by
  rw [idleTurn, hi]

/-- A delay left and a host action left: the host moves and the delay is used up by one. -/
theorem busyTurn_of_delay {s : State} {op : HostOp} {rest : List HostOp} {d : Nat} (w : Word)
    (hd : s.delay = d + 1) (hi : s.inputs = op :: rest) :
    busyTurn w s = hostTurn op rest { s with delay := d } := by
  rw [busyTurn, hd, hi]

/-- Settles O57: the host's turn by what is pending and what is left to do; each action is its bus access by the
definition of `hostTurn`. -/
theorem hostTakesItsNextAction : Obligations.HostTakesItsNextAction := by
  refine ⟨fun s op rest hr hi => ⟨fun hp => ?_, fun w d hp hd => ?_⟩, fun s hr hp hi => ?_, ?_⟩
  · rw [step_of_idle hr hp, idleTurn_cons hi]
  · rw [step_of_pending hr hp, busyTurn_of_delay w hd hi]
  · rw [step_of_idle hr hp, idleTurn_nil hi]
  · intro s rest addr bytes v b
    exact ⟨rfl, rfl, rfl, rfl, rfl, rfl⟩

end Sys2Proof.Proofs
end

