-- ==== Sys2Proof/Proofs/ConfigCheck.lean ====
section
/-! PROOFS. The check of a configuration in the spec's own words (00_scope.md R7, R8), and the first step after power-on. -/

namespace Sys2Proof.Proofs

open Sys2Proof Sys2Proof.Machine

theorem sizeOK_iff (n : Nat) : sizeOK n = true ↔ 0 < n ∧ n ≤ 2 ^ 31 := by
  rw [sizeOK, Bool.and_eq_true, decide_eq_true_eq, decide_eq_true_eq]

theorem entryOK_iff (e : List Byte) :
    entryOK e = true ↔ (1 ≤ e.length ∧ e.length ≤ 4) ∧ ∀ ch ∈ e, 0x21 ≤ ch.toNat ∧ ch.toNat ≤ 0x7E := by
  simp only [entryOK, lexOK, isPrintable, Bool.and_eq_true, decide_eq_true_eq, List.all_eq_true]

/-- No two entries equal after `fold`, by position (00_scope.md R8(d)). -/
theorem nodup_map_foldWord_iff (d : List (List Byte)) :
    (d.map foldWord).Nodup ↔
      ∀ (i j : Nat) (e f : List Byte), d[i]? = some e → d[j]? = some f → foldWord e = foldWord f → i = j := by
  constructor
  · intro h i j e f he hf hef
    obtain ⟨hi, rfl⟩ := List.getElem?_eq_some_iff.mp he
    obtain ⟨hj, rfl⟩ := List.getElem?_eq_some_iff.mp hf
    exact (h.getElem_inj_iff (hi := by simpa using hi) (hj := by simpa using hj)).mp (by simpa using hef)
  · intro h
    refine List.nodup_iff_injective_getElem.mpr fun i j hij => Fin.ext ?_
    have hi : i.val < d.length := by simpa using i.isLt
    have hj : j.val < d.length := by simpa using j.isLt
    exact h i j _ _ (List.getElem?_eq_getElem hi) (List.getElem?_eq_getElem hj) (by simpa using hij)

theorem dictOK_iff (d : List (List Byte)) :
    dictOK d = true ↔ d.length = 2048 ∧ (∀ e ∈ d, entryOK e = true) ∧ (d.map foldWord).Nodup := by
  simp only [dictOK, Bool.and_eq_true, decide_eq_true_eq, List.all_eq_true, and_assoc]

theorem configOK_iff (c : Config) :
    configOK c = true ↔ dictOK c.dict = true ∧ sizeOK c.dmemSize = true ∧ sizeOK c.tmemSize = true := by
  rw [configOK, Bool.and_eq_true, Bool.and_eq_true, and_assoc]

/-- At power-on nothing is pending and the host has no action, so a configuration that is not refused idles. -/
theorem step_powerOn_of_ok {c : Config} (h : configOK c = true) :
    step (State.powerOn c) = .next (State.powerOn c) := by
  have hr : (State.powerOn c).refused = false := by rw [State.powerOn, h]; rfl
  rw [step_of_idle hr rfl, idleTurn_nil rfl]

theorem step_powerOn_refused_iff (c : Config) :
    step (State.powerOn c) = .refused .configRefused ↔ ¬ configOK c = true := by
  constructor
  · intro h hc
    rw [step_powerOn_of_ok hc] at h
    cases h
  · intro h
    have hr : (State.powerOn c).refused = true := by simp [State.powerOn, h]
    exact step_of_refused hr

/-- Settles O8: the first step refuses exactly when the check fails, and the check is R7's and R8's conditions. -/
theorem refusedConfigurationDoesNotRun : Obligations.RefusedConfigurationDoesNotRun := by
  intro c
  rw [step_powerOn_refused_iff, configOK_iff, dictOK_iff, nodup_map_foldWord_iff, sizeOK_iff, sizeOK_iff]
  simp only [entryOK_iff, forall_and, and_assoc]

end Sys2Proof.Proofs
end

