-- ==== Sys2Proof/Proofs/Rom.lean ====
section
/-! PROOFS. The configuration never changes (10_state.md R31): each register write, command body, bus access, host turn
and step leaves it alone. -/

namespace Sys2Proof.Proofs

open Sys2Proof Sys2Proof.Machine Sys2Proof.Laws

@[simp] theorem clearRegisters_cfg (s : State) : s.clearRegisters.cfg = s.cfg := rfl

@[simp] theorem writeReg_cfg (s : State) (r : Reg) (v : Word) : (s.writeReg r v).cfg = s.cfg := by
  cases r <;> rfl

@[simp] theorem writeOffset_cfg (s : State) (off : Nat) (v : Word) : (s.writeOffset off v).cfg = s.cfg := by
  unfold State.writeOffset
  split
  · exact writeReg_cfg s _ v
  · rfl

@[simp] theorem abandonPending_cfg (s : State) : s.abandonPending.cfg = s.cfg := by
  unfold State.abandonPending
  split <;> rfl

@[simp] theorem resetInput_cfg (s : State) : s.resetInput.cfg = s.cfg := abandonPending_cfg s

/-- No command's body writes the configuration. -/
theorem bodyOf_cfg (i : Instr) (s : State) : (bodyOf i s).cfg = s.cfg := by
  cases i with
  | nop => rfl
  | ext start len =>
    obtain h | ⟨v, h⟩ := extBody_cases start len s <;> simp [bodyOf, h]
  | par => rfl
  | i2w index => rfl
  | w2i =>
    obtain h | h | ⟨v, h⟩ := w2iBody_cases s <;> simp [bodyOf, h]
  | encb => rfl
  | decb =>
    obtain ⟨b, v, h | h⟩ := decbBody_cases s <;> simp [bodyOf, h]
  | enc =>
    obtain h | h | ⟨text, _, h⟩ := encBody_cases s <;> simp [bodyOf, h]
  | dec =>
    obtain h | ⟨e, _, h⟩ | ⟨out, _, h⟩ := decBody_cases s <;> simp [bodyOf, h]
  | clr => rfl

theorem coreStep_cfg {w : Word} {s t : State} (h : coreStep w s = .next t) : t.cfg = s.cfg := by
  obtain ⟨i, _, rfl⟩ | rfl := coreStep_cases h
  · rw [complete_cfg, bodyOf_cfg]
  · rfl

theorem busEffect_cfg {s t : State} (h : BusEffect s t) : t.cfg = s.cfg := by
  cases h with
  | writeRegister off v _ => exact writeOffset_cfg s off v
  | _ => rfl

theorem hostTurn_cfg {op : HostOp} {rest : List HostOp} {s t : State} (h : hostTurn op rest s = .next t) :
    t.cfg = s.cfg := by
  obtain rfl | ⟨l, hb⟩ := hostTurn_cases h
  · exact resetInput_cfg _
  · exact (busEffect_cfg hb :)

/-- Settles O16: a step is nothing, a CORE step or a host turn, and each leaves the configuration. -/
theorem romNeverChanges : Obligations.RomNeverChanges := by
  intro s t h
  obtain ⟨_, rfl | ⟨w, _, hc⟩ | ⟨op, rest, d, hh⟩⟩ := step_cases h
  · rfl
  · exact coreStep_cfg hc
  · exact (hostTurn_cfg hh :)

end Sys2Proof.Proofs
end

