-- ==== Sys2Proof/Proofs/CommandFrame.lean ====
section
/-! PROOFS. What each command's body can do to the state, said once, and the frames that follow: who writes the buffers
(10_state.md R33), who writes which register (R25 to R29, R74), what ENC and DEC leave alone (R34, 43_encoder.md R108,
44_decoder.md R123). -/

namespace Sys2Proof.Proofs

open Sys2Proof Sys2Proof.Machine Sys2Proof.Laws

/-- What the body of a command can do: the fields it writes, the errors it raises, where a commit fits. -/
inductive BodyEffect (s : State) : Instr → State → Prop where
  | nop : BodyEffect s .nop s
  | ext (start len : Nat) (v : Word) : BodyEffect s (.ext start len) { s with res := v }
  | extRaise (start len : Nat) : BodyEffect s (.ext start len) (s.raiseErr ⟨.bounds, 0, 0⟩)
  | par (v : Word) : BodyEffect s .par { s with res := v }
  | i2w (index : Nat) (c n : Word) : BodyEffect s (.i2w index) { s with wchr := c, wlen := n }
  | w2i (v : Word) : BodyEffect s .w2i { s with res := v }
  | w2iRaise (code : ErrCode) : code = .lexical ∨ code = .unknownWord →
      BodyEffect s .w2i (s.raiseErr ⟨code, 0, 0⟩)
  | encb (b : Block) (x : Indices) (v : Word) : BodyEffect s .encb { s with blk := b, idx := x, res := v }
  | decb (b : Block) (v : Word) : BodyEffect s .decb { s with blk := b, res := v }
  | decbRaise (b : Block) (v : Word) :
      BodyEffect s .decb (State.raiseErr { s with blk := b, res := v } ⟨.checksum, 5, 0⟩)
  | encRange : BodyEffect s .enc (State.raiseErr { s with outLen := 0 } ⟨.range, 0, 0⟩)
  | encRaise : BodyEffect s .enc ((State.noteReads { s with outLen := 0 } s.encSource).raiseErr ⟨.range, 0, 0⟩)
  | encCommit (text : List Byte) : s.dstAddr.toNat + text.length ≤ s.cfg.tmemSize →
      BodyEffect s .enc { State.noteReads { s with outLen := 0 } s.encSource with
        tmem := s.tmem.writeBytes s.dstAddr.toNat text, outLen := BitVec.ofNat 32 text.length }
  | decRange : BodyEffect s .dec (State.raiseErr { s with outLen := 0 } ⟨.range, 0, 0⟩)
  | decRaise (e : ErrInfo) : e.code = .range ∨ e.code = .structural ∨ e.code = .lexical ∨ e.code = .unknownWord ∨
        e.code = .checksum →
      BodyEffect s .dec ((State.noteReads { s with outLen := 0 } s.decSource).raiseErr e)
  | decCommit (out : List Byte) : s.dstAddr.toNat + out.length ≤ s.cfg.dmemSize →
      BodyEffect s .dec { State.noteReads { s with outLen := 0 } s.decSource with
        dmem := s.dmem.writeBytes s.dstAddr.toNat out, outLen := BitVec.ofNat 32 out.length }
  | clr : BodyEffect s .clr s.clearRegisters

theorem bodyOf_effect (i : Instr) (s : State) : BodyEffect s i (bodyOf i s) := by
  cases i with
  | nop => exact .nop
  | ext start len =>
    obtain h | ⟨v, h⟩ := extBody_cases start len s <;> rw [bodyOf, h]
    · exact .extRaise start len
    · exact .ext start len v
  | par => exact .par _
  | i2w index => exact .i2w index _ _
  | w2i =>
    obtain h | h | ⟨v, h⟩ := w2iBody_cases s <;> rw [bodyOf, h]
    · exact .w2iRaise .lexical (.inl rfl)
    · exact .w2iRaise .unknownWord (.inr rfl)
    · exact .w2i v
  | encb =>
    obtain ⟨b, x, v, h⟩ := encbBody_cases s
    rw [bodyOf, h]
    exact .encb b x v
  | decb =>
    obtain ⟨b, v, h | h⟩ := decbBody_cases s <;> rw [bodyOf, h]
    · exact .decb b v
    · exact .decbRaise b v
  | enc =>
    obtain h | h | ⟨text, hfit, h⟩ := encBody_cases s <;> rw [bodyOf, h]
    · exact .encRange
    · exact .encRaise
    · exact .encCommit text hfit
  | dec =>
    obtain h | ⟨e, he, h⟩ | ⟨out, hfit, h⟩ := decBody_cases s <;> rw [bodyOf, h]
    · exact .decRange
    · exact .decRaise e he
    · exact .decCommit out hfit
  | clr => exact .clr

/-- A command answers its body's effect, completed. -/
theorem exec_effect {i : Instr} {s t : State} (h : exec i s = .next t) : ∃ u, BodyEffect s i u ∧ t = u.complete :=
  ⟨bodyOf i s, bodyOf_effect i s, (exec_next_iff i s t).mp h⟩

theorem bodyEffect_tmem {i : Instr} {s u : State} (h : BodyEffect s i u) (hi : i ≠ .enc) : u.tmem = s.tmem := by
  cases h with
  | encRange | encRaise | encCommit => exact absurd rfl hi
  | _ => rfl

theorem bodyEffect_dmem {i : Instr} {s u : State} (h : BodyEffect s i u) (hi : i ≠ .dec) : u.dmem = s.dmem := by
  cases h with
  | decRange | decRaise | decCommit => exact absurd rfl hi
  | _ => rfl

/-- Settles O17: by what each body can do, completion leaving both buffers alone. -/
theorem onlyEncAndDecWriteBuffers : Obligations.OnlyEncAndDecWriteBuffers := by
  intro i s t h
  obtain ⟨u, hu, rfl⟩ := exec_effect h
  refine ⟨fun hi => ?_, fun hi => ?_⟩
  · rw [complete_tmem, bodyEffect_tmem hu hi]
  · rw [complete_dmem, bodyEffect_dmem hu hi]

/-- Settles O18: by what each body can do; the fields of each effect are read off by the laws of the updates. -/
theorem commandsLeaveOtherRegisters : Obligations.CommandsLeaveOtherRegisters := by
  intro i s t h hclr
  obtain ⟨u, hu, rfl⟩ := exec_effect h
  cases hu with
  | clr => exact absurd rfl hclr
  | _ => simp

/-! ### ENC, DEC and the block registers -/

/-- `s` with BLK, IDX, RES, WCHR and WLEN replaced. -/
def withBlockRegisters (b : Block) (x : Indices) (r w n : Word) (s : State) : State :=
  { s with blk := b, idx := x, res := r, wchr := w, wlen := n }

theorem bodyEffect_blockRegisters {i : Instr} {s u : State} (h : BodyEffect s i u) (hi : i = .enc ∨ i = .dec) :
    u.blk = s.blk ∧ u.idx = s.idx ∧ u.res = s.res ∧ u.wchr = s.wchr ∧ u.wlen = s.wlen := by
  cases h with
  | encRange | encRaise | encCommit | decRange | decRaise | decCommit => exact ⟨rfl, rfl, rfl, rfl, rfl⟩
  | _ => simp at hi

section

variable (b : Block) (x : Indices) (r w n : Word) (s : State)

theorem encCommit_withBlockRegisters (text : List Byte) :
    encCommit text (withBlockRegisters b x r w n s) = withBlockRegisters b x r w n (encCommit text s) := by
  rcases Nat.lt_or_ge s.cfg.tmemSize (s.dstAddr.toNat + text.length) with h | h
  · rw [encCommit_range h]
    exact encCommit_range (s := withBlockRegisters b x r w n s) h
  · rw [encCommit_fits h]
    exact encCommit_fits (s := withBlockRegisters b x r w n s) h

theorem decCommit_withBlockRegisters (toks : List Token) :
    decCommit toks (withBlockRegisters b x r w n s) = withBlockRegisters b x r w n (decCommit toks s) := by
  by_cases h6 : toks.length % 6 = 0
  · rcases Nat.lt_or_ge s.cfg.dmemSize (s.dstAddr.toNat + 8 * (toks.length / 6)) with hr | hr
    · rw [decCommit_range h6 hr]
      exact decCommit_range (s := withBlockRegisters b x r w n s) h6 hr
    · rcases hd : decodeGroups s.cfg.dict 0 toks with e | out
      · rw [decCommit_error h6 hr hd]
        exact decCommit_error (s := withBlockRegisters b x r w n s) h6 hr hd
      · rw [decCommit_fits h6 hr hd]
        exact decCommit_fits (s := withBlockRegisters b x r w n s) h6 hr hd
  · have ht := List.getElem?_eq_getElem (show 6 * (toks.length / 6) < toks.length by omega)
    rw [decCommit_structural (s := s) h6 ht]
    exact decCommit_structural (s := withBlockRegisters b x r w n s) h6 ht

/-- ENC's range check, source and commit do not see the block registers, and OUT_LEN is cleared first. -/
theorem encBody_withBlockRegisters (o : Word) :
    encBody { withBlockRegisters b x r w n s with outLen := o } = withBlockRegisters b x r w n (encBody s) := by
  rcases Nat.lt_or_ge s.cfg.dmemSize (s.srcAddr.toNat + s.srcLen.toNat) with h | h
  · rw [encBody_range h]
    exact encBody_range (s := { withBlockRegisters b x r w n s with outLen := o }) h
  · rw [encBody_read h, ← encCommit_withBlockRegisters]
    exact encBody_read (s := { withBlockRegisters b x r w n s with outLen := o }) h

/-- DEC's range check, source and commit do not see the block registers, and OUT_LEN is cleared first. -/
theorem decBody_withBlockRegisters (o : Word) :
    decBody { withBlockRegisters b x r w n s with outLen := o } = withBlockRegisters b x r w n (decBody s) := by
  rcases Nat.lt_or_ge s.cfg.tmemSize (s.srcAddr.toNat + s.srcLen.toNat) with h | h
  · rw [decBody_range h]
    exact decBody_range (s := { withBlockRegisters b x r w n s with outLen := o }) h
  · rw [decBody_read h, ← decCommit_withBlockRegisters]
    exact decBody_read (s := { withBlockRegisters b x r w n s with outLen := o }) h

end

/-- Settles O55: the frame by what ENC's and DEC's bodies can do, the noninterference by their bodies commuting with any
change of the block registers. -/
theorem bufferCommandsIgnoreTheBlockRegisters : Obligations.BufferCommandsIgnoreTheBlockRegisters := by
  intro i s t b x r w n o hi h
  have hbody : bodyOf i { withBlockRegisters b x r w n s with outLen := o } =
      withBlockRegisters b x r w n (bodyOf i s) := by
    obtain rfl | rfl := hi
    · exact encBody_withBlockRegisters b x r w n s o
    · exact decBody_withBlockRegisters b x r w n s o
  obtain ⟨hblk, hidx, hres, hwchr, hwlen⟩ := bodyEffect_blockRegisters (bodyOf_effect i s) hi
  rw [(exec_next_iff i s t).mp h]
  refine ⟨hblk, hidx, hres, hwchr, hwlen, (exec_next_iff _ _ _).mpr ?_⟩
  exact congrArg State.complete hbody.symm

end Sys2Proof.Proofs
end

