-- ==== Sys2Proof/Proofs/Invariant.lean ====
section
/-! PROOFS. Every step keeps the invariant: each command's body, each bus access and the reset input keeps the buffers
inside their sizes (20_memory.md R40, R41) and STATUS and the error record in agreement (10_state.md R23, R24). -/

namespace Sys2Proof.Proofs

open Sys2Proof Sys2Proof.Machine Sys2Proof.Laws

/-! ### The error record -/

/-- An error with a code is a record that says something (60_exceptions.md R150, R151). -/
theorem recordMatches_raiseErr (s : State) {e : ErrInfo} (he : e.code ≠ .none) : (s.raiseErr e).recordMatches :=
  ⟨⟨fun _ => he, fun _ => rfl⟩, fun h => absurd h (by simp)⟩

theorem recordMatches_of_noError {s : State} (he : s.err = false) (hc : s.errCode = .none) (ht : s.errToken = 0)
    (ha : s.errAddr = 0) : s.recordMatches := by
  simp [State.recordMatches, he, hc, ht, ha]

theorem bodyEffect_recordMatches {i : Instr} {s u : State} (h : BodyEffect s i u) (hs : s.recordMatches) :
    u.recordMatches := by
  cases h with
  | extRaise | decbRaise | encRange | encRaise | decRange => exact recordMatches_raiseErr _ (by simp)
  | w2iRaise code hc => exact recordMatches_raiseErr _ (by rcases hc with rfl | rfl <;> simp)
  | decRaise e he => exact recordMatches_raiseErr _ (by rcases he with h | h | h | h | h <;> simp [h])
  | clr => exact recordMatches_of_noError rfl rfl rfl rfl
  | _ => exact hs

/-! ### The buffers -/

theorem bodyEffect_dmemGood {i : Instr} {s u : State} (h : BodyEffect s i u)
    (hs : Memory.good s.cfg.dmemSize s.dmem) : Memory.good s.cfg.dmemSize u.dmem := by
  cases h with
  | decCommit out hfit => exact writeBytes_good out hs hfit
  | _ => exact hs

theorem bodyEffect_tmemGood {i : Instr} {s u : State} (h : BodyEffect s i u)
    (hs : Memory.good s.cfg.tmemSize s.tmem) : Memory.good s.cfg.tmemSize u.tmem := by
  cases h with
  | encCommit text hfit => exact writeBytes_good text hs hfit
  | _ => exact hs

theorem bodyEffect_refused {i : Instr} {s u : State} (h : BodyEffect s i u) : u.refused = s.refused := by
  cases h <;> rfl

/-! ### The invariant, agent by agent -/

/-- A state that differs only in fields the invariant does not speak of. -/
theorem inv_of_sameCore {s t : State} (hs : s.Inv)
    (h : t = { s with
      res := t.res, srcAddr := t.srcAddr, srcLen := t.srcLen, dstAddr := t.dstAddr, outLen := t.outLen, blk := t.blk,
      wchr := t.wchr, wlen := t.wlen, idx := t.idx, hostProtocol := t.hostProtocol, uninitRead := t.uninitRead,
      inputs := t.inputs, delay := t.delay, schedule := t.schedule, mustPoll := t.mustPoll, readLog := t.readLog,
      freeCount := t.freeCount }) : t.Inv := by
  rw [h]
  exact ⟨hs.dmemGood, hs.tmemGood, hs.configGood, hs.record, hs.pendingClear⟩

/-- A completed state has nothing pending, so its invariant is about the buffers, the configuration and the record. -/
theorem inv_complete {s u : State} (hs : s.Inv) (hc : u.cfg = s.cfg) (hr : u.refused = s.refused)
    (hd : Memory.good s.cfg.dmemSize u.dmem) (ht : Memory.good s.cfg.tmemSize u.tmem) (he : u.recordMatches) :
    u.complete.Inv where
  dmemGood := by rw [complete_cfg, hc]; exact hd
  tmemGood := by rw [complete_cfg, hc]; exact ht
  configGood := by rw [complete_cfg, complete_refused, hc, hr]; exact hs.configGood
  record := he
  pendingClear := fun hb => absurd hb (by simp)

theorem coreStep_inv {w : Word} {s t : State} (hs : s.Inv) (h : coreStep w s = .next t) : t.Inv := by
  obtain ⟨i, _, rfl⟩ | rfl := coreStep_cases h
  · have hb := bodyOf_effect i s
    exact inv_complete hs (bodyOf_cfg i s) (bodyEffect_refused hb) (bodyEffect_dmemGood hb hs.dmemGood)
      (bodyEffect_tmemGood hb hs.tmemGood) (bodyEffect_recordMatches hb hs.record)
  · exact inv_complete hs rfl rfl hs.dmemGood hs.tmemGood (recordMatches_raiseErr s (by simp))

theorem hostIssue_inv {s : State} (hs : s.Inv) (v : Word) : (s.hostIssue v).Inv where
  dmemGood := hs.dmemGood
  tmemGood := hs.tmemGood
  configGood := hs.configGood
  record := recordMatches_of_noError rfl rfl rfl rfl
  pendingClear := fun _ => ⟨rfl, rfl⟩

theorem writeReg_inv {s : State} (hs : s.Inv) (r : Reg) (v : Word) : (s.writeReg r v).Inv := by
  cases r with
  | cmd => exact hostIssue_inv hs v
  | _ => exact inv_of_sameCore hs rfl

theorem writeOffset_inv {s : State} (hs : s.Inv) (off : Nat) (v : Word) : (s.writeOffset off v).Inv := by
  unfold State.writeOffset
  split
  · exact writeReg_inv hs _ v
  · exact hs

theorem busEffect_inv {s t : State} (hs : s.Inv) (h : BusEffect s t) : t.Inv := by
  cases h with
  | nothing => exact hs
  | violation | readStatus | readRegister | readBuffer => exact inv_of_sameCore hs rfl
  | writeRegister off v _ => exact writeOffset_inv hs off v
  | writeDmem off v hoff =>
    exact ⟨write_good hs.dmemGood hoff v, hs.tmemGood, hs.configGood, hs.record, hs.pendingClear⟩
  | writeTmem off v hoff =>
    exact ⟨hs.dmemGood, write_good hs.tmemGood hoff v, hs.configGood, hs.record, hs.pendingClear⟩

theorem abandonPending_inv {s : State} (hs : s.Inv) : s.abandonPending.Inv := by
  unfold State.abandonPending
  split
  · exact ⟨hs.dmemGood, eraseFrom_good hs.tmemGood _, hs.configGood, hs.record, hs.pendingClear⟩
  · exact ⟨eraseFrom_good hs.dmemGood _, hs.tmemGood, hs.configGood, hs.record, hs.pendingClear⟩
  · exact hs

theorem resetInput_inv {s : State} (hs : s.Inv) : s.resetInput.Inv where
  dmemGood := (abandonPending_inv hs).dmemGood
  tmemGood := (abandonPending_inv hs).tmemGood
  configGood := (abandonPending_inv hs).configGood
  record := recordMatches_of_noError rfl rfl rfl rfl
  pendingClear := fun _ => ⟨rfl, rfl⟩

theorem hostTurn_inv {op : HostOp} {rest : List HostOp} {s t : State} (hs : s.Inv)
    (h : hostTurn op rest s = .next t) : t.Inv := by
  obtain rfl | ⟨l, hb⟩ := hostTurn_cases h
  · exact resetInput_inv (inv_of_sameCore hs rfl)
  · exact busEffect_inv (inv_of_sameCore hs rfl) hb

/-- Settles O14: a step is nothing, a CORE step or a host turn, and each keeps the invariant. -/
theorem stepKeepsInvariant : Obligations.StepKeepsInvariant := by
  intro s t hs h
  obtain ⟨_, rfl | ⟨w, _, hc⟩ | ⟨op, rest, d, hh⟩⟩ := step_cases h
  · exact hs
  · exact coreStep_inv hs hc
  · exact hostTurn_inv (inv_of_sameCore hs rfl) hh

end Sys2Proof.Proofs
end

