-- ==== Sys2Proof/Proofs/Registers.lean ====
section
/-! PROOFS. The registers as the host reads and writes them: the bits of STATUS (10_state.md R21, R23), the bits a register
uses and stores (R22, R25, R29), and the reserved offsets (R30). -/

namespace Sys2Proof.Proofs

open Sys2Proof Sys2Proof.Machine Sys2Proof.Laws

/-! ### STATUS -/

theorem getLsbD_threeFlags (a b c : Bool) :
    (BitVec.ofNat 32 (a.toNat + 2 * b.toNat + 4 * c.toNat)).getLsbD 0 = a ∧
      (BitVec.ofNat 32 (a.toNat + 2 * b.toNat + 4 * c.toNat)).getLsbD 1 = b ∧
      (BitVec.ofNat 32 (a.toNat + 2 * b.toNat + 4 * c.toNat)).getLsbD 2 = c := by
  cases a <;> cases b <;> cases c <;> decide

theorem statusWord_toNat_lt (s : State) : s.statusWord.toNat < 2 ^ 3 := by
  have hb := s.busy.toNat_le
  have hd := s.done.toNat_le
  have he := s.err.toNat_le
  rw [State.statusWord, BitVec.toNat_ofNat]
  omega

/-- Settles O23: the three flags are the three low bits, and the word is below 8. -/
theorem statusReadsItsFields : Obligations.StatusReadsItsFields := by
  intro s
  obtain ⟨h0, h1, h2⟩ := getLsbD_threeFlags s.busy s.done s.err
  refine ⟨h0, h1, h2, fun k hk => ?_⟩
  exact Nat.testBit_lt_two_pow (Nat.lt_of_lt_of_le (statusWord_toNat_lt s) (Nat.pow_le_pow_right (by decide) hk))

/-! ### Words and their bytes -/

/-- The four bytes of a word make the word (20_memory.md R38). -/
theorem word4_wordByte (v : Word) : word4 (wordByte v 0) (wordByte v 1) (wordByte v 2) (wordByte v 3) = v := by
  have hv := v.isLt
  apply BitVec.eq_of_toNat_eq
  simp only [word4, wordByte, BitVec.toNat_ofNat]
  omega

theorem word4_top (b : Byte) : word4 b 0 0 0 = BitVec.ofNat 32 (2 ^ 24 * b.toNat) := by
  simp [word4]

/-! ### The masks of the used bits -/

theorem and_fullMask (v : Word) : v &&& 0xFFFFFFFF = v := BitVec.and_allOnes

theorem getLsbD_lowMask (k i : Nat) :
    (BitVec.ofNat 32 (2 ^ k - 1)).getLsbD i = (decide (i < 32) && decide (i < k)) := by
  rw [BitVec.getLsbD_ofNat, Nat.testBit_two_pow_sub_one]

/-- The `k` low bits of a word, by mask and by width. -/
theorem and_lowMask (v : Word) (k : Nat) : v &&& BitVec.ofNat 32 (2 ^ k - 1) = (v.setWidth k).setWidth 32 := by
  apply BitVec.eq_of_getLsbD_eq
  intro i hi
  rw [BitVec.getLsbD_and, getLsbD_lowMask, BitVec.getLsbD_setWidth, BitVec.getLsbD_setWidth]
  simp [hi, Bool.and_comm]

/-- A number of `k` bits has no bit outside the `k` low ones. -/
theorem and_not_lowMask {x : Word} {k : Nat} (h : x.toNat < 2 ^ k) : x &&& ~~~ BitVec.ofNat 32 (2 ^ k - 1) = 0 := by
  apply BitVec.eq_of_getLsbD_eq
  intro i hi
  by_cases hk : i < k
  · simp [getLsbD_lowMask, hi, hk]
  · have hx : x.getLsbD i = false :=
      Nat.testBit_lt_two_pow (Nat.lt_of_lt_of_le h (Nat.pow_le_pow_right (by decide) (Nat.le_of_not_lt hk)))
    simp [hx]

theorem getLsbD_topMask {i : Nat} (hi : i < 32) : (0xFF000000 : Word).getLsbD i = decide (24 ≤ i) := by
  have h : (0xFF000000 : Word) = ~~~ BitVec.ofNat 32 (2 ^ 24 - 1) := by decide
  rw [h, BitVec.getLsbD_not, getLsbD_lowMask]
  by_cases hk : i < 24
  · simp [hi, hk]
  · simp [hi, Nat.le_of_not_lt hk]

theorem getLsbD_word4_top (b : Byte) {i : Nat} (hi : i < 32) :
    (word4 b 0 0 0).getLsbD i = (decide (24 ≤ i) && b.getLsbD (i - 24)) := by
  rw [word4_top, BitVec.getLsbD_ofNat, Nat.testBit_two_pow_mul, BitVec.testBit_toNat]
  simp [hi]

theorem getLsbD_wordByte_zero (v : Word) {i : Nat} (hi : i < 8) : (wordByte v 0).getLsbD i = v.getLsbD (24 + i) := by
  rw [wordByte, BitVec.getLsbD_ofNat, Nat.testBit_div_two_pow, BitVec.testBit_toNat]
  simp [hi, Nat.add_comm]

/-- The top byte of a word, by mask and by BLK_W2's view (10_state.md R25). -/
theorem and_topMask (v : Word) : v &&& 0xFF000000 = word4 (wordByte v 0) 0 0 0 := by
  apply BitVec.eq_of_getLsbD_eq
  intro i hi
  rw [BitVec.getLsbD_and, getLsbD_topMask hi, getLsbD_word4_top _ hi]
  by_cases hk : 24 ≤ i
  · rw [getLsbD_wordByte_zero v (by omega), Nat.add_sub_of_le hk, Bool.and_comm]
  · simp [hk]

theorem word4_top_and_not_topMask (b : Byte) : word4 b 0 0 0 &&& ~~~ 0xFF000000 = 0 := by
  apply BitVec.eq_of_getLsbD_eq
  intro i hi
  rw [BitVec.getLsbD_and, BitVec.getLsbD_not, getLsbD_topMask hi, getLsbD_word4_top _ hi]
  by_cases hk : 24 ≤ i <;> simp [hk]

theorem wordByte_zero_and_topMask (v : Word) : wordByte (v &&& 0xFF000000) 0 = wordByte v 0 := by
  apply BitVec.eq_of_getLsbD_eq
  intro i hi
  rw [getLsbD_wordByte_zero _ hi, getLsbD_wordByte_zero _ hi, BitVec.getLsbD_and, getLsbD_topMask (by omega)]
  simp

/-- The eleven low bits of a word, by mask and by an index's view (10_state.md R29). -/
theorem and_indexMask (v : Word) : v &&& 0x7FF = (v.setWidth 11).setWidth 32 := and_lowMask v 11

theorem setWidth_and_indexMask (v : Word) : (v &&& 0x7FF).setWidth 11 = v.setWidth 11 := by
  rw [and_indexMask]
  simp

theorem index_and_not_indexMask (x : BitVec 11) : x.setWidth 32 &&& ~~~ 0x7FF = (0 : Word) :=
  and_not_lowMask (k := 11) (by simpa using Nat.lt_of_le_of_lt (Nat.mod_le _ _) x.isLt)

/-! ### Used bits and stored bits -/

/-- A reserved field reads 0 (10_state.md R30). -/
theorem regValue_and_not_usedBits (s : State) (r : Reg) : s.regValue r &&& ~~~ usedBits r = 0 := by
  cases r with
  | cmd => exact BitVec.zero_and
  | status => exact and_not_lowMask (k := 3) (statusWord_toNat_lt s)
  | errCode => exact and_not_lowMask (k := 4) (by cases h : s.errCode <;> simp [State.regValue, h, errCodeNumber])
  | blkW2 => exact word4_top_and_not_topMask s.blk.b8
  | idx0 | idx1 | idx2 | idx3 | idx4 | idx5 => exact index_and_not_indexMask _
  | _ => exact BitVec.and_zero

/-- The registers whose writes are ignored (10_state.md R30). -/
def readOnlyRegs : List Reg := [.status, .errCode, .errToken, .errAddr, .res, .outLen]

theorem writeReg_of_readOnly {r : Reg} (h : r ∈ readOnlyRegs) (s : State) (v : Word) : s.writeReg r v = s := by
  cases r with
  | status | errCode | errToken | errAddr | res | outLen => rfl
  | _ => simp [readOnlyRegs] at h

theorem storedBits_of_readOnly {r : Reg} (h : r ∈ readOnlyRegs) : storedBits r = 0#32 := by
  cases r with
  | status | errCode | errToken | errAddr | res | outLen => rfl
  | _ => simp [readOnlyRegs] at h

theorem storedBits_of_writable {r : Reg} (hc : r ≠ .cmd) (h : r ∉ readOnlyRegs) : storedBits r = usedBits r := by
  cases r with
  | cmd => exact absurd rfl hc
  | status | errCode | errToken | errAddr | res | outLen => simp [readOnlyRegs] at h
  | _ => rfl

/-- A register the host writes reads back the used bits of the value. -/
theorem regValue_writeReg_writable (s : State) {r : Reg} (hc : r ≠ .cmd) (h : r ∉ readOnlyRegs) (v : Word) :
    (s.writeReg r v).regValue r = v &&& usedBits r := by
  cases r with
  | cmd => exact absurd rfl hc
  | status | errCode | errToken | errAddr | res | outLen => simp [readOnlyRegs] at h
  | srcAddr | srcLen | dstAddr | wchr | wlen => exact (and_fullMask v).symm
  | blkW0 | blkW1 => exact (word4_wordByte v).trans (and_fullMask v).symm
  | blkW2 => exact (and_topMask v).symm
  | idx0 | idx1 | idx2 | idx3 | idx4 | idx5 => exact (and_indexMask v).symm

/-- What is written to reserved bits does not matter (10_state.md R30). -/
theorem writeReg_and_usedBits (s : State) (r : Reg) (v : Word) : s.writeReg r (v &&& usedBits r) = s.writeReg r v := by
  cases r with
  | status | errCode | errToken | errAddr | res | outLen => rfl
  | blkW2 => simp only [State.writeReg, usedBits, wordByte_zero_and_topMask]
  | idx0 | idx1 | idx2 | idx3 | idx4 | idx5 => simp only [State.writeReg, usedBits, setWidth_and_indexMask]
  | _ => exact congrArg (s.writeReg _) (and_fullMask v)

/-- A written register reads back the stored bits of the value and its old bits elsewhere. -/
theorem regValue_writeReg_same (s : State) {r : Reg} (hc : r ≠ .cmd) (v : Word) :
    (s.writeReg r v).regValue r = (v &&& storedBits r) ||| (s.regValue r &&& ~~~ storedBits r) := by
  by_cases hr : r ∈ readOnlyRegs
  · rw [writeReg_of_readOnly hr, storedBits_of_readOnly hr, BitVec.and_zero, BitVec.zero_or]
    exact (and_fullMask _).symm
  · rw [storedBits_of_writable hc hr, regValue_and_not_usedBits, regValue_writeReg_writable s hc hr]
    exact BitVec.or_zero.symm

/-- Register by register: a write reaches one field, which no other register reads. -/
theorem regValue_writeReg_other (s : State) {r r' : Reg} (hc : r ≠ .cmd) (hne : r' ≠ r) (v : Word) :
    (s.writeReg r v).regValue r' = s.regValue r' := by
  cases r <;> cases r' <;> simp_all [State.writeReg, State.regValue, State.statusWord]

@[simp] theorem writeReg_dmem (s : State) (r : Reg) (v : Word) : (s.writeReg r v).dmem = s.dmem := by
  cases r <;> rfl

@[simp] theorem writeReg_tmem (s : State) (r : Reg) (v : Word) : (s.writeReg r v).tmem = s.tmem := by
  cases r <;> rfl

theorem writeReg_pending (s : State) {r : Reg} (hc : r ≠ .cmd) (v : Word) : (s.writeReg r v).pending = s.pending := by
  cases r with
  | cmd => exact absurd rfl hc
  | _ => rfl

/-! ### Offsets -/

theorem offset_lt (r : Reg) : r.offset < 0x54 := by
  cases r <;> decide

theorem offset_aligned (r : Reg) : r.offset % 4 = 0 := by
  cases r <;> rfl

theorem ofOffset_offset (r : Reg) : Reg.ofOffset r.offset = some r := by
  cases r <;> rfl

/-- The offsets from 0x54 up are reserved (10_state.md R22). -/
theorem ofOffset_reserved {off : Nat} (h : 0x54 ≤ off) : Reg.ofOffset off = none := by
  rw [Reg.ofOffset, List.find?_eq_none]
  intro r _ hr
  have hr : r.offset = off := by simpa using hr
  have := offset_lt r
  omega

theorem writeOffset_offset (s : State) (r : Reg) (v : Word) : s.writeOffset r.offset v = s.writeReg r v := by
  rw [State.writeOffset, ofOffset_offset]

theorem readOffset_offset (s : State) (r : Reg) : s.readOffset r.offset = s.regValue r := by
  rw [State.readOffset, ofOffset_offset]

theorem readOffset_reserved (s : State) {off : Nat} (h : 0x54 ≤ off) : s.readOffset off = 0 := by
  rw [State.readOffset, ofOffset_reserved h]

theorem writeOffset_reserved (s : State) {off : Nat} (h : 0x54 ≤ off) (v : Word) : s.writeOffset off v = s := by
  rw [State.writeOffset, ofOffset_reserved h]

end Sys2Proof.Proofs
end

