-- ==== Sys2Proof/Proofs/HostAccess.lean ====
section
/-! PROOFS. Host accesses that the core serves, on a platform whose windows are apart (20_memory.md R43) and outside the
window of 70_reset_and_hazards.md R172: a register at its offset, a written buffer byte, and the CMD write. -/

namespace Sys2Proof.Proofs

open Sys2Proof Sys2Proof.Machine Sys2Proof.Laws

/-- The codes of 60_exceptions.md R150, in the order of their numbers. -/
def errCodes : List ErrCode :=
  [.none, .lexical, .unknownWord, .checksum, .structural, .bounds, .range, .illegalCmd]

theorem locked_eq_false_iff (s : State) : s.locked = false ↔ s.pending = none ∧ s.mustPoll = false := by
  simp [State.locked]

section

variable {s : State} (hl : s.locked = false) (hw : windowsApart s.cfg = true)

include hl hw

theorem busWriteWord_reg {a : Nat} (ha : a < 256) (h4 : a % 4 = 0) (v : Word) :
    busWriteWord (s.cfg.regBase + a) v s = .next (s.writeOffset a v) := by
  rw [busWriteWord, busTarget_reg_of_apart hw ha h4]
  simp [hostWriteReg, hl]

theorem busWriteWord_offset (r : Reg) (v : Word) :
    busWriteWord (s.cfg.regBase + r.offset) v s = .next (s.writeReg r v) := by
  have hlt : r.offset < 256 := Nat.lt_trans (offset_lt r) (by decide)
  rw [busWriteWord_reg hl hw hlt (offset_aligned r), writeOffset_offset]

/-- A STATUS read outside the window of R172 leaves it closed, so it is a register read like any other. -/
theorem busReadWord_reg {a : Nat} (ha : a < 256) (h4 : a % 4 = 0) :
    busReadWord (s.cfg.regBase + a) s = .next (s.logRead (s.readOffset a)) := by
  have hm := ((locked_eq_false_iff s).mp hl).2
  rw [busReadWord, busTarget_reg_of_apart hw ha h4]
  by_cases hs : a = Reg.offset .status
  · subst hs
    rw [readOffset_offset]
    simp [hostReadReg, State.readStatus, State.logRead, State.regValue, hm]
  · simp [hostReadReg, hs, hl]

theorem busReadByte_dmem {a : Nat} (ha : a < s.cfg.dmemSize) :
    busReadByte (s.cfg.dmemBase + a) s = .next (s.hostReadByte (s.dmem.read? a)) := by
  rw [busReadByte, busTarget_dmem_of_apart hw ha]
  simp [hostReadBuffer, hl]

theorem busReadByte_tmem {a : Nat} (ha : a < s.cfg.tmemSize) :
    busReadByte (s.cfg.tmemBase + a) s = .next (s.hostReadByte (s.tmem.read? a)) := by
  rw [busReadByte, busTarget_tmem_of_apart hw ha]
  simp [hostReadBuffer, hl]

end

theorem hostReadByte_some (s : State) (v : Byte) : s.hostReadByte (some v) = s.logRead (v.setWidth 32) := by
  have hnote : s.noteReads [some v] = s := noteReads_map_some s [v]
  have hread : s.readBytes [some v] = [v] := readBytes_map_some s [v]
  rw [State.hostReadByte, hnote, hread]
  rfl

/-- Settles O20: nothing is pending, so the step is the host's write, which reaches CMD at offset 0 and issues. -/
theorem cmdWriteIssues : Obligations.CmdWriteIssues := by
  intro s w rest hr hp hm hw hi
  have hl : State.locked { s with inputs := rest } = false := (locked_eq_false_iff _).mpr ⟨hp, hm⟩
  rw [step_of_idle hr hp, idleTurn_cons hi]
  exact busWriteWord_offset hl hw .cmd w

/-- Settles O21: a write stores a register's bits and leaves the others, and each offset of the table is its register's. -/
theorem registerWriteStoresItsBits : Obligations.RegisterWriteStoresItsBits := by
  intro s v
  refine ⟨fun r hc => ⟨fun r' => ?_, writeReg_dmem s r v, writeReg_tmem s r v, writeReg_pending s hc v⟩, fun hl hw => ?_⟩
  · split
    · next h => rw [h, regValue_writeReg_same s hc]
    · next h => exact regValue_writeReg_other s hc h v
  · intro p hp
    obtain ⟨r, _, rfl⟩ := List.mem_map.mp (show p ∈ Reg.all.map fun r => (r.offset, r) from hp)
    exact busWriteWord_offset hl hw r v

/-- Settles O22: a reserved offset has no register, the masks give the reserved fields, and each of the six offsets is a
read-only register's. -/
theorem reservedReadsZeroAndIgnoresWrites : Obligations.ReservedReadsZeroAndIgnoresWrites := by
  intro s v v'
  refine ⟨fun off h => ⟨readOffset_reserved s h, writeOffset_reserved s h v⟩, regValue_and_not_usedBits s,
    fun r h => writeReg_of_readOnly h s v, fun r h => ?_, fun hl hw off h4 h256 h => ?_⟩
  · rw [← writeReg_and_usedBits, h, writeReg_and_usedBits]
  · rw [busWriteWord_reg hl hw h256 h4]
    obtain h | h := h
    · rw [writeOffset_reserved s h]
    · obtain ⟨r, hr, rfl⟩ := List.mem_map.mp (show off ∈ readOnlyRegs.map Reg.offset from h)
      rw [writeOffset_offset, writeReg_of_readOnly hr]

/-- Settles O26: a lawful read logs the offset's value; the tables of offsets and of codes are the model's, row by row. -/
theorem hostReadsReturnTheValue : Obligations.HostReadsReturnTheValue := by
  intro s a hl hw
  refine ⟨busReadWord_reg hl hw, ?_, ?_, fun v ha hv => ?_, fun v ha hv => ?_⟩
  · rw [← word4_top]
    intro p hp
    obtain ⟨r, _, rfl⟩ := List.mem_map.mp
      (show p ∈ (Reg.all.erase .errCode).map fun r => (r.offset, s.regValue r) from hp)
    exact readOffset_offset s r
  · intro p hp hcode
    obtain ⟨c, _, rfl⟩ := List.mem_map.mp
      (show p ∈ errCodes.map fun c => (c, BitVec.ofNat 32 (errCodeNumber c)) from hp)
    exact (readOffset_offset s .errCode).trans (congrArg (fun c => BitVec.ofNat 32 (errCodeNumber c)) hcode)
  · rw [busReadByte_dmem hl hw ha, hv, hostReadByte_some]; rfl
  · rw [busReadByte_tmem hl hw ha, hv, hostReadByte_some]; rfl

end Sys2Proof.Proofs
end

