-- ==== Sys2Proof/Proofs/AccessRules.lean ====
section
/-! PROOFS. The access rules of the host port: what an access's target says of its windows, width and alignment
(20_memory.md R43, R44), which accesses are violations (R44, 70_reset_and_hazards.md R172), which change nothing (20_memory.md
R45), and what a lawful read or byte write changes (R46). -/

namespace Sys2Proof.Proofs

open Sys2Proof Sys2Proof.Machine Sys2Proof.Laws

/-! ### Targets -/

theorem busTarget_eq_outside_iff {c : Config} {addr bytes : Nat} : busTarget c addr bytes = .outside ↔
    touches c.regBase regWindowSize addr bytes = false ∧ touches c.dmemBase c.dmemSize addr bytes = false ∧
      touches c.tmemBase c.tmemSize addr bytes = false := by
  constructor
  · intro h
    unfold busTarget at h
    split at h
    · next hr hd ht => exact ⟨hr, hd, ht⟩
    all_goals split at h <;> cases h
  · rintro ⟨hr, hd, ht⟩
    rw [busTarget, hr, hd, ht]

/-- A register access touches no buffer, is 32 bits wide and aligned (20_memory.md R44). -/
theorem busTarget_eq_reg {c : Config} {addr bytes off : Nat} (h : busTarget c addr bytes = .reg off) :
    (touches c.dmemBase c.dmemSize addr bytes = false ∧ touches c.tmemBase c.tmemSize addr bytes = false) ∧
      bytes = 4 ∧ c.regBase ≤ addr ∧ (addr - c.regBase) % 4 = 0 := by
  unfold busTarget at h
  split at h
  · cases h
  · next hd ht =>
    split at h
    · next hfit => exact ⟨⟨hd, ht⟩, hfit⟩
    · cases h
  all_goals split at h <;> cases h

/-- A buffer access does not touch the register window. -/
theorem touches_reg_of_buffer {c : Config} {addr bytes off : Nat}
    (h : busTarget c addr bytes = .dmem off ∨ busTarget c addr bytes = .tmem off) :
    touches c.regBase regWindowSize addr bytes = false := by
  unfold busTarget at h
  split at h
  · next hr _ _ => exact hr
  · split at h <;> simp at h
  · next hr _ _ => exact hr
  · next hr _ _ => exact hr
  · split at h <;> simp at h

/-- An access that touches a window is an access to the core. -/
theorem busTarget_ne_outside {c : Config} {addr bytes : Nat}
    (h : touches c.regBase regWindowSize addr bytes = true ∨ touches c.dmemBase c.dmemSize addr bytes = true ∨
      touches c.tmemBase c.tmemSize addr bytes = true) : busTarget c addr bytes ≠ .outside := by
  intro ho
  obtain ⟨hr, hd, ht⟩ := busTarget_eq_outside_iff.mp ho
  simp [hr, hd, ht] at h

/-- The address of STATUS lies in the register window on every platform. -/
theorem touches_statusAddr (c : Config) : touches c.regBase regWindowSize (statusAddr c) 4 = true := by
  have hoff : Reg.offset .status = 4 := rfl
  unfold touches regWindowSize statusAddr
  rw [decide_eq_true_eq, hoff]
  omega

/-! ### Violations

Each lemma names the accesses of its width that could be lawful; where they come while the core is locked, or not at
all, the access is a violation. -/

section

variable {s : State} (hw : windowsApart s.cfg = true) {addr : Nat}

include hw

theorem busReadWord_violation (ho : busTarget s.cfg addr 4 ≠ .outside)
    (hreg : ∀ off, busTarget s.cfg addr 4 = .reg off → off ≠ Reg.offset .status ∧ s.locked = true) :
    busReadWord addr s = .next s.violation := by
  unfold busReadWord
  split
  · next off h =>
    obtain ⟨hoff, hl⟩ := hreg off h
    simp [hostReadReg, hoff, hl]
  · rfl
  · rfl
  · rfl
  · next h => exact absurd h ho
  · next h => exact absurd h (busTarget_ne_overlap hw addr 4)

theorem busWriteWord_violation (ho : busTarget s.cfg addr 4 ≠ .outside)
    (hreg : ∀ off, busTarget s.cfg addr 4 = .reg off → s.locked = true) (v : Word) :
    busWriteWord addr v s = .next s.violation := by
  unfold busWriteWord
  split
  · next off h => simp [hostWriteReg, hreg off h]
  · rfl
  · rfl
  · rfl
  · next h => exact absurd h ho
  · next h => exact absurd h (busTarget_ne_overlap hw addr 4)

theorem busReadByte_violation (ho : busTarget s.cfg addr 1 ≠ .outside)
    (hbuf : ∀ off, busTarget s.cfg addr 1 = .dmem off ∨ busTarget s.cfg addr 1 = .tmem off → s.locked = true) :
    busReadByte addr s = .next s.violation := by
  unfold busReadByte
  split
  · rfl
  · next off h => simp [hostReadBuffer, hbuf off (.inl h)]
  · next off h => simp [hostReadBuffer, hbuf off (.inr h)]
  · rfl
  · next h => exact absurd h ho
  · next h => exact absurd h (busTarget_ne_overlap hw addr 1)

theorem busWriteByte_violation (ho : busTarget s.cfg addr 1 ≠ .outside)
    (hbuf : ∀ off, busTarget s.cfg addr 1 = .dmem off ∨ busTarget s.cfg addr 1 = .tmem off → s.locked = true)
    (v : Byte) : busWriteByte addr v s = .next s.violation := by
  unfold busWriteByte
  split
  · rfl
  · next off h => simp [hbuf off (.inl h)]
  · next off h => simp [hbuf off (.inr h)]
  · rfl
  · next h => exact absurd h ho
  · next h => exact absurd h (busTarget_ne_overlap hw addr 1)

theorem busOtherAccess_violation {bytes : Nat} (ho : busTarget s.cfg addr bytes ≠ .outside) :
    busOtherAccess addr bytes s = .next s.violation := by
  unfold busOtherAccess
  split
  · rfl
  · rfl
  · rfl
  · rfl
  · next h => exact absurd h ho
  · next h => exact absurd h (busTarget_ne_overlap hw addr bytes)

end

/-! ### Lawful accesses -/

theorem busReadWord_status {s : State} (hw : windowsApart s.cfg = true) :
    busReadWord (s.cfg.regBase + 0x04) s = .next s.readStatus := by
  rw [busReadWord, busTarget_reg_of_apart hw (by decide) (by decide)]
  rfl

/-- After a STATUS read the host is locked out exactly while BUSY = 1 (70_reset_and_hazards.md R172). -/
theorem locked_readStatus (s : State) : s.readStatus.locked = s.pending.isSome := by
  cases h : s.pending <;> simp [State.readStatus, State.logRead, State.locked, h]

theorem busReadWord_cases {addr : Nat} {s t : State} (h : busReadWord addr s = .next t) :
    t = s ∨ t = s.violation ∨ t = s.readStatus ∨ ∃ off, t = s.logRead (s.readOffset off) := by
  unfold busReadWord at h
  split at h
  · next off _ =>
    unfold hostReadReg at h
    split at h
    · cases h; exact .inr (.inr (.inl rfl))
    · split at h <;> cases h
      · exact .inr (.inl rfl)
      · exact .inr (.inr (.inr ⟨off, rfl⟩))
  all_goals cases h
  · exact .inr (.inl rfl)
  · exact .inr (.inl rfl)
  · exact .inr (.inl rfl)
  · exact .inl rfl

theorem hostReadBuffer_cases {cell : Option Byte} {s t : State} (h : hostReadBuffer cell s = .next t) :
    t = s.violation ∨ t = s.hostReadByte cell := by
  unfold hostReadBuffer at h
  split at h <;> cases h
  · exact .inl rfl
  · exact .inr rfl

theorem busReadByte_cases {addr : Nat} {s t : State} (h : busReadByte addr s = .next t) :
    t = s ∨ t = s.violation ∨ ∃ cell, t = s.hostReadByte cell := by
  unfold busReadByte at h
  split at h
  · cases h; exact .inr (.inl rfl)
  · exact .inr ((hostReadBuffer_cases h).imp_right fun ht => ⟨_, ht⟩)
  · exact .inr ((hostReadBuffer_cases h).imp_right fun ht => ⟨_, ht⟩)
  all_goals cases h
  · exact .inr (.inl rfl)
  · exact .inl rfl

section

variable {s : State} (hl : s.locked = false) (hw : windowsApart s.cfg = true)

include hl hw

theorem busWriteByte_dmem {a : Nat} (ha : a < s.cfg.dmemSize) (v : Byte) :
    busWriteByte (s.cfg.dmemBase + a) v s = .next { s with dmem := s.dmem.write a v } := by
  rw [busWriteByte, busTarget_dmem_of_apart hw ha]
  simp [hl]

theorem busWriteByte_tmem {a : Nat} (ha : a < s.cfg.tmemSize) (v : Byte) :
    busWriteByte (s.cfg.tmemBase + a) v s = .next { s with tmem := s.tmem.write a v } := by
  rw [busWriteByte, busTarget_tmem_of_apart hw ha]
  simp [hl]

end

/-! ### The obligations -/

/-- Settles O24: by what a read on the bus can answer, none of which touches a field of the core. -/
theorem hostReadsHaveNoSideEffect : Obligations.HostReadsHaveNoSideEffect := by
  intro s t addr
  refine ⟨fun h => ?_, fun h => ?_⟩
  · obtain rfl | rfl | rfl | ⟨off, rfl⟩ := busReadWord_cases h <;> rfl
  · obtain rfl | rfl | ⟨cell, rfl⟩ := busReadByte_cases h <;> rfl

/-- Settles O25: the access is one buffer write, and a buffer write is read back at its own offset only. -/
theorem hostByteWriteChangesOneByte : Obligations.HostByteWriteChangesOneByte := by
  intro s a v hl hw
  exact ⟨fun ha => ⟨_, busWriteByte_dmem hl hw ha v, read?_write_same s.dmem a v,
      fun _ hb => read?_write_other s.dmem v hb⟩,
    fun ha => ⟨_, busWriteByte_tmem hl hw ha v, read?_write_same s.tmem a v,
      fun _ hb => read?_write_other s.tmem v hb⟩⟩

/-- In the window of 70_reset_and_hazards.md R172 every access to the core but a STATUS read is a violation. -/
theorem hostTurn_of_locked {s : State} {op : HostOp} {addr bytes : Nat} (rest : List HostOp) (hl : s.locked = true)
    (hw : windowsApart s.cfg = true) (hacc : accessOf s.cfg op = some (addr, bytes))
    (ho : busTarget s.cfg addr bytes ≠ .outside) (hst : isStatusRead s.cfg op = false) :
    hostTurn op rest s = .next { s with inputs := rest, hostProtocol := true } := by
  -- the access is made by `s` with the host's actions moved on
  have hw : windowsApart (State.cfg { s with inputs := rest }) = true := hw
  cases op with
  | readWord a =>
    cases hacc
    refine busReadWord_violation hw ho fun off hoff => ⟨?_, hl⟩
    rintro rfl
    exact of_decide_eq_false hst hoff
  | writeWord a v => cases hacc; exact busWriteWord_violation hw ho (fun _ _ => hl) v
  | readByte a => cases hacc; exact busReadByte_violation hw ho fun _ _ => hl
  | writeByte a v => cases hacc; exact busWriteByte_violation hw ho (fun _ _ => hl) v
  | otherAccess a n => cases hacc; exact busOtherAccess_violation hw ho
  | poll => cases hst
  | reset => cases hacc

/-- Settles O27: the violation action by action; a STATUS read reaches its register in every state and ends the window
exactly when nothing is pending. -/
theorem accessWhileLockedIsAViolation : Obligations.AccessWhileLockedIsAViolation := by
  refine ⟨fun s op rest addr bytes hl hw hacc ho hst => hostTurn_of_locked rest hl hw hacc ho hst,
    fun s rest hw => ⟨State.readStatus { s with inputs := rest }, ?_, rfl, ?_⟩⟩
  · exact busReadWord_status (s := { s with inputs := rest }) hw
  · rw [locked_readStatus, Option.isSome_eq_false_iff, Option.isNone_iff_eq_none]

/-- Settles O28: the access touches a window, so it is one to the core, and its width or alignment is not that of the one
target which a lawful access of that width has. -/
theorem misfitAccessIsAViolation : Obligations.MisfitAccessIsAViolation := by
  intro s rest addr bytes v b hw
  -- the access is made by `s` with the host's actions moved on
  have hw : windowsApart (State.cfg { s with inputs := rest }) = true := hw
  refine ⟨fun ht hmis => ?_, fun ht => ?_, fun ht => ?_, fun ht => ?_⟩
  · have ho := busTarget_ne_outside (.inl ht)
    have hreg : ∀ off, busTarget s.cfg addr 4 ≠ .reg off := fun off h => hmis (busTarget_eq_reg h).2.2
    exact ⟨busReadWord_violation hw ho fun off h => absurd h (hreg off),
      busWriteWord_violation hw ho (fun off h => absurd h (hreg off)) v⟩
  · have ho := busTarget_ne_outside (.inl ht)
    have hbuf : ∀ off, ¬ (busTarget s.cfg addr 1 = .dmem off ∨ busTarget s.cfg addr 1 = .tmem off) :=
      fun off h => Bool.false_ne_true ((touches_reg_of_buffer h).symm.trans ht)
    exact ⟨busReadByte_violation hw ho fun off h => absurd h (hbuf off),
      busWriteByte_violation hw ho (fun off h => absurd h (hbuf off)) b⟩
  · have ho := busTarget_ne_outside (.inr ht)
    have hreg : ∀ off, busTarget s.cfg addr 4 ≠ .reg off := fun off h => by
      obtain ⟨⟨hd, htm⟩, _⟩ := busTarget_eq_reg h
      simp [hd, htm] at ht
    exact ⟨busReadWord_violation hw ho fun off h => absurd h (hreg off),
      busWriteWord_violation hw ho (fun off h => absurd h (hreg off)) v⟩
  · exact busOtherAccess_violation hw (busTarget_ne_outside ht)

/-- An access outside the windows only consumes the host's action; a poll never falls outside. -/
theorem hostTurn_of_outside {s : State} {op : HostOp} {addr bytes : Nat} (rest : List HostOp)
    (hacc : accessOf s.cfg op = some (addr, bytes)) (ho : busTarget s.cfg addr bytes = .outside) :
    hostTurn op rest s = .next { s with inputs := rest } := by
  cases op with
  | readWord a => cases hacc; simp [hostTurn, busReadWord, ho]
  | writeWord a v => cases hacc; simp [hostTurn, busWriteWord, ho]
  | readByte a => cases hacc; simp [hostTurn, busReadByte, ho]
  | writeByte a v => cases hacc; simp [hostTurn, busWriteByte, ho]
  | otherAccess a n => cases hacc; simp [hostTurn, busOtherAccess, ho]
  | poll => cases hacc; exact absurd ho (busTarget_ne_outside (.inl (touches_statusAddr s.cfg)))
  | reset => cases hacc

/-- Settles O29: an access that touches no window has the target outside. -/
theorem accessOutsideChangesNothing : Obligations.AccessOutsideChangesNothing := by
  intro s op rest addr bytes hacc hr hd ht
  exact hostTurn_of_outside rest hacc (busTarget_eq_outside_iff.mpr ⟨hr, hd, ht⟩)

end Sys2Proof.Proofs
end

