-- ==== Sys2Proof/Proofs/PowerOn.lean ====
section
/-! PROOFS. The invariant after power-on (70_reset_and_hazards.md R170, R171, R174(c)). -/

namespace Sys2Proof.Proofs

open Sys2Proof Sys2Proof.Machine Sys2Proof.Laws

@[simp] theorem powerOn_cfg (c : Config) : (State.powerOn c).cfg = c := rfl

/-- The mark REFUSED after power-on is the failed check (70_reset_and_hazards.md R174(c)). -/
@[simp] theorem powerOn_refused (c : Config) : (State.powerOn c).refused = !configOK c := rfl

/-- Settles O9: empty buffers, no error and nothing pending, and REFUSED clear only where the check passes. -/
theorem powerOnHasInvariant : Obligations.PowerOnHasInvariant := fun c =>
  { dmemGood := empty_good c.dmemSize
    tmemGood := empty_good c.tmemSize
    configGood := fun h => by simpa using h
    record := recordMatches_of_noError rfl rfl rfl rfl
    pendingClear := fun _ => ⟨rfl, rfl⟩ }

end Sys2Proof.Proofs
end

