-- ==== Sys2Proof/Proofs/Encoding.lean ====
section
/-! PROOFS. The decoder and the encoder are inverse to each other on the legal words and the well-formed commands
(30_encoding.md R57, R58, R60, R62), and a command statement is a write of its command's word (R63, R64, R65). -/

namespace Sys2Proof.Proofs

open Sys2Proof Sys2Proof.Machine Sys2Proof.Laws

/-! ### The fields of a word -/

theorem bitField_op (w : Word) : bitField w.toNat 31 28 = w.toNat / 2 ^ 28 := by
  have hw := w.isLt
  simp only [bitField]; omega

theorem bitField_operand (v : Nat) : bitField v 27 0 = v % 2 ^ 28 := by simp [bitField]

theorem encodedWord (i : Instr) : EncodedWord.Statement i := by
  cases i with
  | nop => exact EncodedWord.nop
  | ext start len => exact EncodedWord.ext start len
  | par => exact EncodedWord.par
  | i2w index => exact EncodedWord.i2w index
  | w2i => exact EncodedWord.w2i
  | encb => exact EncodedWord.encb
  | decb => exact EncodedWord.decb
  | enc => exact EncodedWord.enc
  | dec => exact EncodedWord.dec
  | clr => exact EncodedWord.clr

/-- The word of a well-formed command is the one with its OP and its operand bits. -/
theorem encode_eq_iff {i : Instr} {w : Word} (hi : i.wellFormed = true) :
    encode i = w ↔ w.toNat / 2 ^ 28 = opcode i ∧ w.toNat % 2 ^ 28 = operandBits i := by
  obtain ⟨hlt, hval⟩ := encodedWord i hi
  rw [← BitVec.toNat_inj, hval]
  omega

/-! ### The three formats -/

theorem decodeZ_eq_ok_iff {v : Nat} {i j : Instr} : decodeZ v i = .ok j ↔ v % 2 ^ 28 = 0 ∧ j = i := by
  rw [decodeZ, bitField_operand]
  split
  · next h => exact ⟨fun he => ⟨h, (Except.ok.inj he).symm⟩, fun hj => congrArg _ hj.2.symm⟩
  · next h => exact ⟨nofun, fun hj => absurd hj.1 h⟩

theorem decodeX_eq_ok_iff {v : Nat} {i : Instr} :
    decodeX v = .ok i ↔ ∃ start len, i = .ext start len ∧ start ≤ 127 ∧ len ≤ 31 ∧
      v % 2 ^ 28 = 0x100 * len + start := by
  unfold decodeX
  constructor
  · intro h
    split at h
    · next hres =>
      cases h
      refine ⟨_, _, rfl, ?_⟩
      simp only [bitField] at hres ⊢; omega
    · cases h
  · rintro ⟨start, len, rfl, hs, hl, hv⟩
    have hres : bitField v 27 13 = 0 ∧ bitField v 7 7 = 0 := by simp only [bitField]; omega
    have hstart : bitField v 6 0 = start := by simp only [bitField]; omega
    have hlen : bitField v 12 8 = len := by simp only [bitField]; omega
    rw [if_pos hres, hstart, hlen]

theorem decodeI_eq_ok_iff {v : Nat} {i : Instr} :
    decodeI v = .ok i ↔ ∃ index, i = .i2w index ∧ index ≤ 2047 ∧ v % 2 ^ 28 = index := by
  unfold decodeI
  constructor
  · intro h
    split at h
    · next hres =>
      cases h
      refine ⟨_, rfl, ?_⟩
      simp only [bitField] at hres ⊢; omega
    · cases h
  · rintro ⟨index, rfl, hn, hv⟩
    have hres : bitField v 27 11 = 0 := by simp only [bitField]; omega
    have hindex : bitField v 10 0 = index := by simp only [bitField]; omega
    rw [if_pos hres, hindex]

/-! ### Decoding and encoding -/

theorem fields_of_decode {w : Word} {i : Instr} (h : decode w = .ok i) :
    i.wellFormed = true ∧ w.toNat / 2 ^ 28 = opcode i ∧ w.toNat % 2 ^ 28 = operandBits i := by
  rw [decode, bitField_op] at h
  split at h
  -- OP 1 is format X, OP 3 format I, OP 0xA..0xF reserved; every other OP is format Z.
  case h_2 hop =>
    obtain ⟨start, len, rfl, hs, hl, hv⟩ := decodeX_eq_ok_iff.mp h
    exact ⟨by simp [Instr.wellFormed, hs, hl], hop, hv⟩
  case h_4 hop =>
    obtain ⟨index, rfl, hn, hv⟩ := decodeI_eq_ok_iff.mp h
    exact ⟨by simp [Instr.wellFormed, hn], hop, hv⟩
  case h_11 => cases h
  all_goals
    next hop =>
      obtain ⟨hv, rfl⟩ := decodeZ_eq_ok_iff.mp h
      exact ⟨rfl, hop, hv⟩

theorem decode_of_fields {w : Word} {i : Instr} (hi : i.wellFormed = true) (hop : w.toNat / 2 ^ 28 = opcode i)
    (hv : w.toNat % 2 ^ 28 = operandBits i) : decode w = .ok i := by
  rw [decode, bitField_op, hop]
  cases i with
  | ext start len =>
    simp only [Instr.wellFormed, Bool.and_eq_true, decide_eq_true_eq] at hi
    exact decodeX_eq_ok_iff.mpr ⟨start, len, rfl, hi.1, hi.2, hv⟩
  | i2w index => exact decodeI_eq_ok_iff.mpr ⟨index, rfl, of_decide_eq_true hi, hv⟩
  | _ => exact decodeZ_eq_ok_iff.mpr ⟨hv, rfl⟩

/-- The decoder reads exactly the well-formed commands, each from its own word. -/
theorem decode_eq_ok_iff {w : Word} {i : Instr} : decode w = .ok i ↔ i.wellFormed = true ∧ encode i = w := by
  constructor
  · intro h
    obtain ⟨hi, hf⟩ := fields_of_decode h
    exact ⟨hi, (encode_eq_iff hi).mpr hf⟩
  · rintro ⟨hi, he⟩
    obtain ⟨hop, hv⟩ := (encode_eq_iff hi).mp he
    exact decode_of_fields hi hop hv

/-- Settles O2: both fields of the encoded word are read back by the decoder's format. -/
theorem decodeOfEncode : Obligations.DecodeOfEncode := fun _ hi => decode_eq_ok_iff.mpr ⟨hi, rfl⟩

/-- Settles O3: a format checks its reserved bits, so OP and the operand bits make up the whole word. -/
theorem encodeOfDecode : Obligations.EncodeOfDecode := fun _ _ h => decode_eq_ok_iff.mp h

/-! ### The legal words -/

/-- The commands of format Z (30_encoding.md R57, R59). -/
def zCommands : List Instr := [.nop, .par, .w2i, .encb, .decb, .enc, .dec, .clr]

theorem zCommands_fields : ∀ i ∈ zCommands, i.wellFormed = true ∧ operandBits i = 0 := by decide

/-- Settles O4: the words of the Z commands, of EXT and of I2W, each from its OP and operand bits. -/
theorem legalWordsAreTheListedOnes : Obligations.LegalWordsAreTheListedOnes := by
  intro w
  constructor
  · rintro ⟨i, h⟩
    obtain ⟨hi, hop, hv⟩ := fields_of_decode h
    cases i with
    | ext start len =>
      simp only [Instr.wellFormed, Bool.and_eq_true, decide_eq_true_eq, opcode, operandBits] at hi hop hv
      exact .inr (.inl (by omega))
    | i2w index =>
      simp only [Instr.wellFormed, decide_eq_true_eq, opcode, operandBits] at hi hop hv
      exact .inr (.inr (by omega))
    | _ => exact .inl ⟨hv, hop ▸ by decide⟩
  · rintro (⟨hv, hop⟩ | ⟨hlo, hhi, h7⟩ | ⟨hlo, hhi⟩)
    · obtain ⟨i, hi, hopi⟩ := List.mem_map.mp (show _ ∈ zCommands.map opcode from hop)
      obtain ⟨hwf, hbits⟩ := zCommands_fields i hi
      exact ⟨i, decode_of_fields hwf hopi.symm (hv.trans hbits.symm)⟩
    · refine ⟨.ext (w.toNat % 128) (w.toNat / 256 % 32), decode_of_fields ?_ ?_ ?_⟩
      · simp only [Instr.wellFormed, Bool.and_eq_true, decide_eq_true_eq]; omega
      · simp only [opcode]; omega
      · simp only [operandBits]; omega
    · refine ⟨.i2w (w.toNat % 2 ^ 28), decode_of_fields ?_ ?_ rfl⟩
      · simp only [Instr.wellFormed, decide_eq_true_eq]; omega
      · simp only [opcode]; omega

/-! ### Command statements -/

theorem wellFormed_of_commandOf {st : CmdStmt} {i : Instr} (h : commandOf st = some i) : i.wellFormed = true := by
  cases st with
  | instr j =>
    obtain ⟨hj, he⟩ := Option.ite_none_right_eq_some.mp h
    cases he
    exact hj
  | slice j =>
    obtain ⟨hj, he⟩ := Option.ite_none_right_eq_some.mp h
    cases he
    simp only [Instr.wellFormed, Bool.and_eq_true, decide_eq_true_eq]; omega
  | chk => cases h; rfl
  | pair g =>
    obtain ⟨hg, he⟩ := Option.ite_none_right_eq_some.mp h
    cases he
    simp only [Instr.wellFormed, Bool.and_eq_true, decide_eq_true_eq]; omega

/-- Settles O5: CMD is at offset 0, and a command statement stands for well-formed commands only. -/
theorem commandStatementWritesItsWord : Obligations.CommandStatementWritesItsWord := by
  intro c st i h
  refine ⟨?_, decodeOfEncode i (wellFormed_of_commandOf h)⟩
  rw [assemble, assembleCommand, h]
  rfl

/-- Settles O1: statements and words by computation; the words decode because the listed commands are well formed. -/
theorem listedWordsDecode : Obligations.ListedWordsDecode := by
  intro p hp
  have hword : commandOf p.1 = some p.2.1 ∧ encode p.2.1 = p.2.2 := by
    revert p; decide
  obtain ⟨hc, he⟩ := hword
  exact ⟨hc, he, decode_eq_ok_iff.mpr ⟨wellFormed_of_commandOf hc, he⟩⟩

end Sys2Proof.Proofs
end

