-- ==== Sys2Proof/Proofs/CoreTurn.lean ====
section
/-! PROOFS. The CORE's turn: the pending word's command is carried out and completes, or ILLEGAL_CMD is raised
(30_encoding.md R55, R56, R60, 45_control.md R142), and a waiting host sees it through (R64, R172, R178). -/

namespace Sys2Proof.Proofs

open Sys2Proof Sys2Proof.Machine Sys2Proof.Laws

/-! ### The CORE step -/

theorem busyTurn_of_coreTurn {s : State} (w : Word) (ht : s.delay = 0 ∨ s.inputs = []) :
    busyTurn w s = coreStep w s := by
  unfold busyTurn
  split
  · next hd hi => simp [hd, hi] at ht
  · rfl
  · rfl

theorem step_of_coreTurn {s : State} {w : Word} (hr : s.refused = false) (hp : s.pending = some w)
    (ht : s.delay = 0 ∨ s.inputs = []) : step s = coreStep w s := by
  rw [step_of_pending hr hp, busyTurn_of_coreTurn w ht]

theorem coreStep_of_legal {w : Word} {i : Instr} (hd : decode w = .ok i) (s : State) : coreStep w s = exec i s := by
  rw [coreStep, hd]

theorem coreStep_of_illegal {w : Word} (hw : ∀ i : Instr, i.wellFormed = true → encode i ≠ w) (s : State) :
    coreStep w s = .next (s.failed ⟨.illegalCmd, 0, 0⟩) := by
  unfold coreStep
  split
  · next i hd =>
    obtain ⟨hi, he⟩ := decode_eq_ok_iff.mp hd
    exact absurd he (hw i hi)
  · rfl

/-- Settles O11: the CORE step of a word that decodes is its command's meaning. -/
theorem stepRunsDecodedCommand : Obligations.StepRunsDecodedCommand := fun s _ _ hr hp ht hd =>
  (step_of_coreTurn hr hp ht).trans (coreStep_of_legal hd s)

/-- Settles O12: a word of no command does not decode, and its CORE step is the raise of ILLEGAL_CMD. -/
theorem illegalWordRaisesIllegalCmd : Obligations.IllegalWordRaisesIllegalCmd := fun s _ hr hp ht hw =>
  (step_of_coreTurn hr hp ht).trans (coreStep_of_illegal hw s)

/-! ### Completion -/

/-- No command's body touches the mark HOST_PROTOCOL or the host's part of the state. -/
theorem bodyEffect_host {i : Instr} {s u : State} (h : BodyEffect s i u) :
    u.hostProtocol = s.hostProtocol ∧ u.inputs = s.inputs ∧ u.delay = s.delay ∧ u.schedule = s.schedule ∧
      u.mustPoll = s.mustPoll ∧ u.readLog = s.readLog := by
  cases h <;> exact ⟨rfl, rfl, rfl, rfl, rfl, rfl⟩

/-- Settles O13: every command answers its body's state, completed. -/
theorem everyCommandCompletes : Obligations.EveryCommandCompletes := by
  intro i s
  have hb := bodyOf_effect i s
  obtain ⟨hprot, hinp, hdelay, hsched, hpoll, hlog⟩ := bodyEffect_host hb
  have href : (bodyOf i s).refused = s.refused := bodyEffect_refused hb
  exact ⟨_, exec_eq i s, rfl, rfl, bodyOf_cfg i s, hprot, href, hinp, hdelay, hsched, hpoll,
    hlog⟩

/-! ### Waiting -/

theorem stepTimes_succ {s t : State} (n : Nat) (h : step s = .next t) : stepTimes (n + 1) s = stepTimes n t := by
  rw [stepTimes, h]

theorem hostTurn_poll (rest : List HostOp) {s : State} (hw : windowsApart s.cfg = true) :
    hostTurn .poll rest s =
      .next (State.readStatus { s with inputs := if s.busy then .poll :: rest else rest }) :=
  busReadWord_status (s := { s with inputs := if s.busy then .poll :: rest else rest }) hw

/-- The state after a poll that read BUSY = 1, with `d` host turns left before the CORE step. -/
def afterBusyPoll (s : State) (d : Nat) : State :=
  { s with delay := d, readLog := s.readLog ++ [s.statusWord] }

/-- A poll while the schedule delays the CORE step reads BUSY = 1, and the host goes on waiting. -/
theorem step_busyPoll {s : State} {w : Word} {rest : List HostOp} {d : Nat} (hr : s.refused = false)
    (hp : s.pending = some w) (hi : s.inputs = .poll :: rest) (hw : windowsApart s.cfg = true) (hd : s.delay = d + 1) :
    step s = .next (afterBusyPoll s d) := by
  rw [step_of_pending hr hp, busyTurn_of_delay w hd hi, hostTurn_poll (s := { s with delay := d }) rest hw]
  simp [afterBusyPoll, State.readStatus, State.logRead, State.statusWord, hp, hi]

/-- The state whose CORE step is due, after the polls that its schedule leaves to a waiting host. -/
def afterBusyPolls (s : State) : State :=
  { s with delay := 0, readLog := s.readLog ++ List.replicate s.delay s.statusWord }

theorem afterBusyPolls_of_delay_zero {s : State} (hd : s.delay = 0) : afterBusyPolls s = s := by
  rw [afterBusyPolls, hd, List.replicate_zero, List.append_nil, ← hd]

theorem afterBusyPolls_afterBusyPoll {s : State} {d : Nat} (hd : s.delay = d + 1) :
    afterBusyPolls (afterBusyPoll s d) = afterBusyPolls s := by
  simp [afterBusyPolls, afterBusyPoll, State.statusWord, hd, List.replicate_succ]

theorem stepTimes_busyPolls {w : Word} {rest : List HostOp} (n d : Nat) : ∀ {s : State}, s.refused = false →
    s.pending = some w → s.inputs = .poll :: rest → windowsApart s.cfg = true → s.delay = d →
    stepTimes (d + n) s = stepTimes n (afterBusyPolls s) := by
  induction d with
  | zero =>
    intro s _ _ _ _ hd
    rw [afterBusyPolls_of_delay_zero hd, Nat.zero_add]
  | succ d ih =>
    intro s hr hp hi hw hd
    have hpolls := ih (s := afterBusyPoll s d) hr hp hi hw rfl
    rw [Nat.add_right_comm, stepTimes_succ _ (step_busyPoll hr hp hi hw hd), hpolls, afterBusyPolls_afterBusyPoll hd]

/-- Settles O19: the delayed polls, then the CORE step, then the poll that reads BUSY = 0. -/
theorem waitSeesTheCommandCompleted : Obligations.WaitSeesTheCommandCompleted := by
  intro s w i rest hr hp hd hi hw
  obtain ⟨u, hu, hpend, -, hcfg, -, href, hinp, -⟩ := everyCommandCompletes i (afterBusyPolls s)
  have hcore : step (afterBusyPolls s) = .next u :=
    (stepRunsDecodedCommand (afterBusyPolls s) w i hr hp (.inl rfl) hd).trans hu
  have hlast : step u = .next { u with inputs := rest, readLog := u.readLog ++ [u.statusWord], mustPoll := false } := by
    have hwu : windowsApart u.cfg = true := by rw [hcfg]; exact hw
    rw [step_of_idle (href.trans hr) hpend, idleTurn_cons (hinp.trans hi), hostTurn_poll rest hwu]
    simp [State.readStatus, State.logRead, State.statusWord, hpend]
  refine ⟨u, _, hu, rfl, ?_⟩
  rw [stepTimes_busyPolls 2 s.delay hr hp hi hw rfl, stepTimes_succ 1 hcore, stepTimes_succ 0 hlast]
  rfl

end Sys2Proof.Proofs
end

