-- ==== Sys2Proof/Proofs/BitView.lean ====
section
/-! PROOFS. The bit-extraction unit: adjacent fields join to one field (40_bitview.md R71(e)), and EXT's result and BOUNDS
check on BLK (R73, R74). -/

namespace Sys2Proof.Proofs

open Sys2Proof Sys2Proof.Machine Sys2Proof.Laws

/-- Settles O33: by induction on the length of the second field, whose last bit is that of the whole. -/
theorem adjacentFieldsJoin : Obligations.AdjacentFieldsJoin := by
  intro buf start len1 len2
  induction len2 with
  | zero => simp
  | succ len2 ih =>
    calc extract buf start (len1 + len2 + 1)
        = 2 * extract buf start (len1 + len2) + sbit buf (start + len1 + len2) := by
          rw [extract_succ, Nat.add_assoc start]
      _ = extract buf start len1 * 2 ^ (len2 + 1) +
            (2 * extract buf (start + len1) len2 + sbit buf (start + len1 + len2)) := by
          rw [ih, pow_succ]; ring
      _ = extract buf start len1 * 2 ^ (len2 + 1) + extract buf (start + len1) (len2 + 1) := by rw [← extract_succ]

/-- A field of BLK as arithmetic on BLK's 72-bit value (40_bitview.md R71(c)). -/
theorem extract_block (b : Block) {start len : Nat} (h : start + len ≤ 72) :
    extract b.bytes start len = bigEndian b.bytes / 2 ^ (72 - start - len) % 2 ^ len :=
  extract_eq b.bytes start len h

theorem extBody_of_inBlock {start len : Nat} (h : start + len ≤ 72) (s : State) :
    extBody start len s =
      { s with res := BitVec.ofNat 32 (bigEndian s.blk.bytes / 2 ^ (72 - start - len) % 2 ^ len) } := by
  rw [extBody, if_neg (Nat.not_lt.mpr h), extract_block s.blk h]

theorem extBody_of_outOfBlock {start len : Nat} (h : ¬ start + len ≤ 72) (s : State) :
    extBody start len s = s.raiseErr ⟨.bounds, 0, 0⟩ := by
  rw [extBody, if_pos (Nat.not_le.mp h)]

theorem encode_ext_toNat {start len : Nat} (h : Instr.wellFormed (.ext start len) = true) :
    (encode (.ext start len)).toNat = 0x10000000 + 0x100 * len + start := by
  obtain ⟨-, hword⟩ := EncodedWord.ext start len h
  rw [hword, opcode, operandBits]; omega

/-- Settles O32: the word's OP and operand bits, and EXT's body on each side of its BOUNDS check, completed. -/
theorem extReadsTheField : Obligations.ExtReadsTheField := by
  intro s start len hwf
  refine ⟨encode_ext_toNat hwf, ?_⟩
  have hexec : exec (.ext start len) s = .next (extBody start len s).complete := exec_eq _ s
  rw [hexec]
  split
  case isTrue h => rw [extBody_of_inBlock h]; rfl
  case isFalse h => rw [extBody_of_outOfBlock h]; rfl

end Sys2Proof.Proofs
end

