-- ==== Sys2Proof/Proofs/Parity.lean ====
section
/-! PROOFS. The checksum as one sum of the thirty-two groups: PAR's result (41_parity.md R80, R83), its form as two
population counts (R81(c)), and that it sees every change confined to one group, so every flipped data bit (R82(a)). -/

namespace Sys2Proof.Proofs

open Sys2Proof Sys2Proof.Machine Sys2Proof.Laws

/-! ### The checksum as a sum -/

/-- Reducing modulo 4 after each addition is reducing once at the end (41_parity.md R80). -/
theorem checksumOfGroups_eq_sum (p : List Byte) (n : Nat) :
    checksumOfGroups p n = (∑ g ∈ Finset.range n, pairField p g) % 4 := by
  induction n with
  | zero => rfl
  | succ n ih => rw [checksumOfGroups, ih, Nat.mod_add_mod, Finset.sum_range_succ]

theorem checksum_eq_sum (p : List Byte) : checksum p = (∑ g ∈ Finset.range 32, pairField p g) % 4 :=
  checksumOfGroups_eq_sum p 32

/-! ### PAR -/

/-- A group of the 64 data bits as arithmetic on their value (40_bitview.md R71(c), R76). -/
theorem pairField_of_data {d : List Byte} (hd : d.length = 8) {g : Nat} (hg : g < 32) :
    pairField d g = bigEndian d / 2 ^ (62 - 2 * g) % 4 := by
  have hpos : 8 * d.length - 2 * g - 2 = 62 - 2 * g := by omega
  rw [pairField, extract_eq _ _ _ (by omega), hpos]; rfl

/-- Only the eight data bytes count, each group read off their value (41_parity.md R80, R81(b)). -/
theorem checksum_eq_sum_data {p : List Byte} (hp : 8 ≤ p.length) :
    checksum p = ((List.range 32).map fun g => bigEndian (p.take 8) / 2 ^ (62 - 2 * g) % 4).sum % 4 := by
  have hd : (p.take 8).length = 8 := List.length_take_of_le hp
  calc checksum p
      = checksum (p.take 8) := (checksum_take_eight p).symm
    _ = (∑ g ∈ Finset.range 32, pairField (p.take 8) g) % 4 := checksum_eq_sum _
    _ = (∑ g ∈ Finset.range 32, bigEndian (p.take 8) / 2 ^ (62 - 2 * g) % 4) % 4 := by
      rw [Finset.sum_congr rfl fun g hg => pairField_of_data hd (Finset.mem_range.mp hg)]

/-- Settles O34: PAR's word is the one it encodes to; its body writes the checksum of BLK, the sum over the data bytes. -/
theorem parSumsThirtyTwoGroups : Obligations.ParSumsThirtyTwoGroups := by
  refine ⟨decodeOfEncode .par rfl, fun s => ?_⟩
  have hblk : 8 ≤ s.blk.bytes.length := by simp
  rw [exec_eq, bodyOf, parBody, checksum_eq_sum_data hblk]
  rfl

/-! ### Population counts -/

theorem popcountFrom_eq_sum (lo n : Nat) :
    popcountFrom lo n = ∑ k ∈ Finset.range 32, (n.testBit (2 * k + lo)).toNat := by
  calc popcountFrom lo n
      = ((List.range 32).filter fun k => decide (n.testBit (2 * k + lo) = true)).length := by
        simp only [popcountFrom, Bool.decide_eq_true]
    _ = ((Finset.range 32).filter fun k => n.testBit (2 * k + lo) = true).card := rfl
    _ = ∑ k ∈ Finset.range 32, if n.testBit (2 * k + lo) = true then 1 else 0 := Finset.card_filter _ _
    _ = ∑ k ∈ Finset.range 32, (n.testBit (2 * k + lo)).toNat := by
        refine Finset.sum_congr rfl fun k _ => ?_
        cases n.testBit (2 * k + lo) <;> rfl

/-- Group `31 - k` of the data holds bits `2k + 1` and `2k` of their value. -/
theorem pairField_reflect {d : List Byte} (hd : d.length = 8) {k : Nat} (hk : k < 32) :
    pairField d (32 - 1 - k) =
      2 * ((bigEndian d).testBit (2 * k + 1)).toNat + ((bigEndian d).testBit (2 * k + 0)).toNat := by
  have hhigh : 8 * d.length - 1 - 2 * (32 - 1 - k) = 2 * k + 1 := by omega
  have hlow : 8 * d.length - 1 - (2 * (32 - 1 - k) + 1) = 2 * k + 0 := by omega
  rw [pairField_eq, sbit_eq _ _ (by omega), sbit_eq _ _ (by omega), hhigh, hlow, Nat.toNat_testBit, Nat.toNat_testBit]

/-- Settles O35: the groups in reverse order, the high and the low bits summed apart. -/
theorem checksumCountsBits : Obligations.ChecksumCountsBits := by
  intro d hd
  rw [checksum_eq_sum, ← Finset.sum_range_reflect,
    Finset.sum_congr rfl fun k hk => pairField_reflect hd (Finset.mem_range.mp hk), Finset.sum_add_distrib,
    ← Finset.mul_sum, ← popcountFrom_eq_sum, ← popcountFrom_eq_sum]

/-! ### Changes of one group -/

theorem pairField_lt (p : List Byte) (g : Nat) : pairField p g < 4 := extract_lt p (2 * g) 2

/-- A change confined to one group changes the checksum: the difference of two group values is never 0 modulo 4. -/
theorem checksum_ne_of_one_group {p q : List Byte} {g : Nat} (hg : g < 32)
    (hsame : ∀ k ≠ g, pairField p k = pairField q k) (hdiff : pairField p g ≠ pairField q g) :
    checksum p ≠ checksum q := by
  have hmem : g ∈ Finset.range 32 := Finset.mem_range.mpr hg
  have hrest : ∑ k ∈ (Finset.range 32).erase g, pairField p k = ∑ k ∈ (Finset.range 32).erase g, pairField q k :=
    Finset.sum_congr rfl fun k hk => hsame k (Finset.ne_of_mem_erase hk)
  have hp := pairField_lt p g
  have hq := pairField_lt q g
  rw [checksum_eq_sum, checksum_eq_sum, ← Finset.add_sum_erase _ _ hmem, ← Finset.add_sum_erase _ _ hmem, hrest]
  omega

/-- A flipped stream bit changes its own group and no other (40_bitview.md R76). -/
theorem pairField_flipBit_ne {p : List Byte} {b k : Nat} (hb : b < 8 * p.length) (hk : k ≠ b / 2) :
    pairField (flipBit p b) k = pairField p k := by
  rw [pairField_eq, pairField_eq, sbit_flipBit p b _ hb, sbit_flipBit p b _ hb, if_neg (by omega), if_neg (by omega)]

theorem pairField_flipBit_self {p : List Byte} {b : Nat} (hb : b < 8 * p.length) :
    pairField (flipBit p b) (b / 2) ≠ pairField p (b / 2) := by
  have hhigh := sbit_lt_two p (2 * (b / 2))
  have hlow := sbit_lt_two p (2 * (b / 2) + 1)
  rw [pairField_eq, pairField_eq, sbit_flipBit p b _ hb, sbit_flipBit p b _ hb]
  obtain heven | hodd : 2 * (b / 2) = b ∨ 2 * (b / 2) + 1 = b := by omega
  · rw [if_pos heven, if_neg (by omega)]; omega
  · rw [if_pos hodd, if_neg (by omega)]; omega

/-- Settles O36: the flipped bit changes group `b / 2` alone. -/
theorem checksumSeesEverySingleFlip : Obligations.ChecksumSeesEverySingleFlip := by
  intro p b hp hb
  have hbit : b < 8 * p.length := by omega
  exact checksum_ne_of_one_group (g := b / 2) (by omega) (fun _ hk => pairField_flipBit_ne hbit hk)
    (pairField_flipBit_self hbit)

end Sys2Proof.Proofs
end

