-- ==== Sys2Proof/Proofs/Dictionary.lean ====
section
/-! PROOFS. The dictionary commands: what I2W leaves in WCHR and WLEN (42_dictionary.md R94), W2I's three outcomes (R95),
and that W2I reads back the word I2W wrote and answers its index (R93(a)). -/

namespace Sys2Proof.Proofs

open Sys2Proof Sys2Proof.Machine Sys2Proof.Laws

/-! ### Words of up to four codes in WCHR -/

theorem wordChars_word4 (a b c d : Byte) : wordChars (word4 a b c d) = [a, b, c, d] := by
  have ha := a.isLt
  have hb := b.isLt
  have hc := c.isLt
  have hd := d.isLt
  simp only [wordChars, wordByte, word4, List.cons.injEq, and_true, ← BitVec.toNat_inj, BitVec.toNat_ofNat]
  omega

/-- The length picks the word's codes out of WCHR again (42_dictionary.md R94, R95). -/
theorem take_wordChars_packChars {t : List Byte} (h : t.length ≤ 4) : (wordChars (packChars t)).take t.length = t := by
  rw [packChars, wordChars_word4]
  match t, h with
  | [], _ | [_], _ | [_, _], _ | [_, _, _], _ | [_, _, _, _], _ => rfl

/-- WCHR as a sum over the word's own codes: the unused low bytes add 0 (42_dictionary.md R94). -/
theorem packChars_eq_sum {t : List Byte} (h : t.length ≤ 4) :
    packChars t =
      BitVec.ofNat 32 (((List.range t.length).map fun k => 2 ^ (24 - 8 * k) * (t.getD k 0).toNat).sum) := by
  rw [packChars, word4]
  match t, h with
  | [], _ | [_], _ | [_, _], _ | [_, _, _], _ | [_, _, _, _], _ =>
    simp [List.range_succ, Nat.add_assoc]

/-! ### I2W -/

theorem encode_i2w_toNat {index : Nat} (h : Instr.wellFormed (.i2w index) = true) :
    (encode (.i2w index)).toNat = 0x30000000 + index := by
  obtain ⟨-, hword⟩ := EncodedWord.i2w index h
  rw [hword, opcode, operandBits]; omega

/-- Settles O37: the index's entry exists, and I2W's body packs its codes and stores its length. -/
theorem indexToWordWritesTheEntry : Obligations.IndexToWordWritesTheEntry := by
  intro s index hc hwf
  have hd : dictOK s.cfg.dict = true := configOK_dict hc
  have hi : index < 2048 := Nat.lt_succ_of_le (of_decide_eq_true hwf)
  obtain ⟨hone, hfour, -⟩ := dictOK_entry hd (wordOf_mem hd hi)
  refine ⟨encode_i2w_toNat hwf, wordOf s.cfg.dict index, getElem?_wordOf hd hi, hone, hfour, ?_⟩
  rw [← packChars_eq_sum hfour]
  exact exec_eq _ s

/-! ### W2I -/

theorem lexOK_iff (n : Nat) : lexOK n = true ↔ 1 ≤ n ∧ n ≤ 4 := by simp [lexOK]

theorem w2iBody_of_badLength {s : State} (h : ¬ lexOK s.wlen.toNat = true) :
    w2iBody s = s.raiseErr ⟨.lexical, 0, 0⟩ := by rw [w2iBody, if_neg h]

theorem w2iBody_of_hit {s : State} {i : Nat} (hl : lexOK s.wlen.toNat = true)
    (hx : indexOf s.cfg.dict s.wordOperand = some i) : w2iBody s = { s with res := BitVec.ofNat 32 i } := by
  rw [w2iBody, if_pos hl, hx]

theorem w2iBody_of_miss {s : State} (hl : lexOK s.wlen.toNat = true)
    (hx : indexOf s.cfg.dict s.wordOperand = none) : w2iBody s = s.raiseErr ⟨.unknownWord, 0, 0⟩ := by
  rw [w2iBody, if_pos hl, hx]

/-- Settles O38: the length decides LEXICAL; otherwise the lookup answers the one matching entry's index, or misses. -/
theorem wordToIndexLooksUp : Obligations.WordToIndexLooksUp := by
  refine ⟨decodeOfEncode .w2i rfl, fun s hc => ?_⟩
  have hexec : exec .w2i s = .next (w2iBody s).complete := exec_eq _ s
  rw [hexec]
  refine ⟨fun hbad => ?_, fun hone hfour => ?_⟩
  · rw [w2iBody_of_badLength (by rw [lexOK_iff]; omega)]; rfl
  · have hl : lexOK s.wlen.toNat = true := (lexOK_iff _).mpr ⟨hone, hfour⟩
    refine ⟨fun i e he hf => ?_, fun hmiss => ?_⟩
    · rw [w2iBody_of_hit hl (indexOf_eq_of_match (configOK_dict hc) he hf)]; rfl
    · rw [w2iBody_of_miss hl (indexOf_eq_none hmiss)]; rfl

/-! ### I2W then W2I -/

theorem i2wBody_wlen_toNat {s : State} {index : Nat} (h : (wordOf s.cfg.dict index).length ≤ 4) :
    (i2wBody index s).wlen.toNat = (wordOf s.cfg.dict index).length :=
  (BitVec.toNat_ofNat _ _).trans (Nat.mod_eq_of_lt (by omega))

theorem i2wBody_wordOperand {s : State} {index : Nat} (h : (wordOf s.cfg.dict index).length ≤ 4) :
    (i2wBody index s).wordOperand = wordOf s.cfg.dict index := by
  rw [State.wordOperand, i2wBody_wlen_toNat h]
  exact take_wordChars_packChars h

/-- Settles O39: after I2W, W2I's operand is the entry itself, whose lookup answers its own index. -/
theorem indexWordRoundTrip : Obligations.IndexWordRoundTrip := by
  intro s index hc hle
  have hd : dictOK s.cfg.dict = true := configOK_dict hc
  have hi : index < 2048 := Nat.lt_succ_of_le hle
  obtain ⟨hone, hfour, -⟩ := dictOK_entry hd (wordOf_mem hd hi)
  have hl : lexOK (i2wBody index s).complete.wlen.toNat = true := by
    rw [complete_wlen, i2wBody_wlen_toNat hfour, lexOK_iff]
    exact ⟨hone, hfour⟩
  have hx : indexOf s.cfg.dict (i2wBody index s).complete.wordOperand = some index :=
    (congrArg (indexOf s.cfg.dict) (i2wBody_wordOperand hfour)).trans (indexOf_wordOf hd hi)
  refine ⟨(i2wBody index s).complete, _, exec_eq _ s, exec_eq _ _, ?_⟩
  rw [bodyOf, w2iBody_of_hit hl hx]
  rfl

end Sys2Proof.Proofs
end

