-- ==== Sys2Proof/Proofs/Encoder.lean ====
section
/-! PROOFS. The encoder: ENCB's block and six indices as arithmetic on the block's value (43_encoder.md R101, R102), ENC's
two RANGE checks and its commit (R107), and the shape of ENC's text (R106). -/

namespace Sys2Proof.Proofs

open Sys2Proof Sys2Proof.Machine Sys2Proof.Laws

/-! ### ENCB -/

/-- An index register's 11 bits as arithmetic on BLK's value; field `j` lies `n` bits above its end (40_bitview.md R76). -/
theorem ofNat_indexField (b : Block) {j n : Nat} (h : 11 * j + n = 61) :
    BitVec.ofNat 11 (indexField b.bytes j) = BitVec.ofNat 11 (bigEndian b.bytes / 2 ^ n) := by
  have hn : 72 - 11 * j - 11 = n := by omega
  rw [indexField, extract_block b (by omega), hn, ← BitVec.toNat_inj, BitVec.toNat_ofNat, BitVec.toNat_ofNat,
    Nat.mod_mod]

theorem ofValues_sliceBlock (b : Block) :
    Indices.ofValues (sliceBlock b.bytes) =
      ⟨BitVec.ofNat 11 (bigEndian b.bytes / 2 ^ 61), BitVec.ofNat 11 (bigEndian b.bytes / 2 ^ 50),
        BitVec.ofNat 11 (bigEndian b.bytes / 2 ^ 39), BitVec.ofNat 11 (bigEndian b.bytes / 2 ^ 28),
        BitVec.ofNat 11 (bigEndian b.bytes / 2 ^ 17), BitVec.ofNat 11 (bigEndian b.bytes / 2 ^ 6)⟩ :=
  (Indices.mk.injEq ..).mpr
    ⟨ofNat_indexField b (j := 0) rfl, ofNat_indexField b (j := 1) rfl, ofNat_indexField b (j := 2) rfl,
      ofNat_indexField b (j := 3) rfl, ofNat_indexField b (j := 4) rfl, ofNat_indexField b (j := 5) rfl⟩

/-- Settles O40: ENCB's body slices the block with its checksum appended; each slice is read off the block's value. -/
theorem encbAppendsAndSlices : Obligations.EncbAppendsAndSlices := by
  refine ⟨decodeOfEncode .encb rfl, fun s => ?_⟩
  rw [exec_eq, bodyOf, encbBody, ofValues_sliceBlock]
  rfl

/-! ### A buffer after a commit -/

theorem read?_writeBytes_of_getElem? (m : Memory) (a : Nat) {vs : List Byte} {k : Nat} {v : Byte}
    (h : vs[k]? = some v) : (m.writeBytes a vs).read? (a + k) = some v := by
  have hk : k < vs.length := (List.getElem?_eq_some_iff.mp h).1
  rw [read?_writeBytes, if_pos (by omega), Nat.add_sub_cancel_left, h]

theorem read?_writeBytes_outside (m : Memory) {a b : Nat} {vs : List Byte} (h : b < a ∨ a + vs.length ≤ b) :
    (m.writeBytes a vs).read? b = m.read? b := by
  rw [read?_writeBytes, if_neg (by omega)]

/-! ### ENC -/

section

variable {s : State} (hsrc : s.srcAddr.toNat + s.srcLen.toNat ≤ s.cfg.dmemSize)

include hsrc

theorem encBody_textRange
    (hdst : s.cfg.tmemSize < s.dstAddr.toNat + (encodeText s.cfg.dict (s.readBytes s.encSource)).length) :
    encBody s = (State.noteReads { s with outLen := 0 } s.encSource).raiseErr ⟨.range, 0, 0⟩ :=
  (encBody_read hsrc).trans (encCommit_range hdst)

theorem encBody_commits
    (hdst : s.dstAddr.toNat + (encodeText s.cfg.dict (s.readBytes s.encSource)).length ≤ s.cfg.tmemSize) :
    encBody s = { State.noteReads { s with outLen := 0 } s.encSource with
      tmem := s.tmem.writeBytes s.dstAddr.toNat (encodeText s.cfg.dict (s.readBytes s.encSource))
      outLen := BitVec.ofNat 32 (encodeText s.cfg.dict (s.readBytes s.encSource)).length } :=
  (encBody_read hsrc).trans (encCommit_fits hdst)

end

/-- Settles O44: ENC's body on each side of its two RANGE checks, completed; the committed buffer byte by byte. -/
theorem encWritesTheText : Obligations.EncWritesTheText := by
  refine ⟨decodeOfEncode .enc rfl, fun s => ?_⟩
  have hexec : exec .enc s = .next (encBody s).complete := exec_eq _ s
  rw [hexec]
  refine ⟨fun l hl => ?written, fun hsrc => ?sourceRange, fun hsrc => ⟨fun hdst => ?textRange, fun hdst => ?commit⟩⟩
  case written => rw [hl]; exact ⟨readBytes_map_some s l, noteReads_map_some s l⟩
  case sourceRange => rw [encBody_range hsrc]; rfl
  case textRange => rw [encBody_textRange hsrc hdst]; rfl
  case commit =>
    refine ⟨s.tmem.writeBytes s.dstAddr.toNat (encodeText s.cfg.dict (s.readBytes s.encSource)), ?_, ?_, ?_⟩
    · rw [encBody_commits hsrc hdst]; rfl
    · exact fun k v hv => read?_writeBytes_of_getElem? s.tmem _ hv
    · exact fun a ha => read?_writeBytes_outside s.tmem ha

/-! ### The words of a buffer -/

theorem length_encodeWords (d : List (List Byte)) (b : List Byte) :
    (encodeWords d b).length = 6 * ((b.length + 7) / 8) := by
  simp [encodeWords, List.length_flatMap, numBlocks_eq, Nat.mul_comm]

theorem encodeWords_ne_nil (d : List (List Byte)) {b : List Byte} (h : b ≠ []) : encodeWords d b ≠ [] := by
  have hb : 0 < b.length := List.length_pos_iff.mpr h
  rw [← List.length_pos_iff, length_encodeWords]
  omega

/-- Words of 1 to 4 codes have between one and four codes a word in all (00_scope.md R8(b)). -/
theorem sum_length_bounds {ws : List (List Byte)} (h : ∀ w ∈ ws, 1 ≤ w.length ∧ w.length ≤ 4) :
    ws.length ≤ (ws.map List.length).sum ∧ (ws.map List.length).sum ≤ 4 * ws.length := by
  have hlow := List.card_nsmul_le_sum (ws.map List.length) 1 (by simpa using fun w hw => (h w hw).1)
  have hhigh := List.sum_le_card_nsmul (ws.map List.length) 4 (by simpa using fun w hw => (h w hw).2)
  rw [List.length_map, smul_eq_mul] at hlow hhigh
  omega

/-! ### Joined words -/

/-- Joined with single separators: one separator fewer than words (43_encoder.md R105). -/
theorem length_joinWords {ws : List (List Byte)} (h : ws ≠ []) :
    (joinWords ws).length + 1 = (ws.map List.length).sum + ws.length := by
  induction ws with
  | nil => exact absurd rfl h
  | cons w ws ih =>
    cases ws with
    | nil => simp [joinWords]
    | cons v ws =>
      have ih := ih (List.cons_ne_nil v ws)
      rw [joinWords_cons_cons, List.length_append, List.length_cons, List.map_cons, List.sum_cons, List.length_cons]
      omega

/-- The separator codes of joined words are those between the words, where no word holds one. -/
theorem countP_isSep_joinWords {ws : List (List Byte)} (h : ws ≠ []) (hsep : ∀ w ∈ ws, ∀ c ∈ w, isSep c = false) :
    (joinWords ws).countP isSep + 1 = ws.length := by
  induction ws with
  | nil => exact absurd rfl h
  | cons w ws ih =>
    have hw : w.countP isSep = 0 := List.countP_eq_zero.mpr fun c hc => by simp [hsep w List.mem_cons_self c hc]
    cases ws with
    | nil => simp [joinWords, hw]
    | cons v ws =>
      have ih := ih (List.cons_ne_nil v ws) fun x hx => hsep x (List.mem_cons_of_mem w hx)
      have hspace : isSep 0x20#8 = true := by decide
      rw [joinWords_cons_cons, List.countP_append, List.countP_cons_of_pos hspace, List.length_cons, hw]
      omega

theorem mem_joinWords {ws : List (List Byte)} {c : Byte} (h : c ∈ joinWords ws) : c = 0x20#8 ∨ ∃ w ∈ ws, c ∈ w := by
  cases ws with
  | nil => exact absurd h List.not_mem_nil
  | cons w ws =>
    rw [joinWords, List.mem_append, List.mem_flatMap] at h
    obtain hw | ⟨v, hv, hc⟩ := h
    · exact .inr ⟨w, List.mem_cons_self, hw⟩
    · obtain rfl | hc := List.mem_cons.mp hc
      · exact .inl rfl
      · exact .inr ⟨v, List.mem_cons_of_mem w hv, hc⟩

theorem eq_space_of_mem_joinWords {ws : List (List Byte)} (hsep : ∀ w ∈ ws, ∀ c ∈ w, isSep c = false) {c : Byte}
    (h : c ∈ joinWords ws) (hc : isSep c = true) : c = 0x20#8 := by
  obtain rfl | ⟨w, hw, hcw⟩ := mem_joinWords h
  · rfl
  · exact absurd hc (by simp [hsep w hw c hcw])

/-! ### The text -/

@[simp] theorem encodeText_nil (d : List (List Byte)) : encodeText d [] = [] := rfl

/-- Settles O45: the text joins `6 * NB` dictionary words, each of 1 to 4 codes and none with a separator. -/
theorem textHasTheStatedShape : Obligations.TextHasTheStatedShape := by
  intro c b hc
  have hd : dictOK c.dict = true := configOK_dict hc
  have hentry : ∀ w ∈ encodeWords c.dict b, 1 ≤ w.length ∧ w.length ≤ 4 := fun w hw => by
    obtain ⟨hone, hfour, -⟩ := dictOK_entry hd (encodeWords_mem hd hw)
    exact ⟨hone, hfour⟩
  have hsep : ∀ w ∈ encodeWords c.dict b, ∀ ch ∈ w, isSep ch = false := fun w hw =>
    noSep_of_mem hd (encodeWords_mem hd hw)
  have hcount := length_encodeWords c.dict b
  obtain ⟨hlow, hhigh⟩ := sum_length_bounds hentry
  refine ⟨hcount, fun hb => hb ▸ encodeText_nil c.dict, fun hb => ?_⟩
  have hne := encodeWords_ne_nil c.dict hb
  have hlen := length_joinWords hne
  rw [hcount] at hlow hhigh hlen
  rw [encodeText]
  refine ⟨hlen, ?_, ?_, ?_, fun ch hch => eq_space_of_mem_joinWords hsep hch⟩
  · omega
  · omega
  · rw [countP_isSep_joinWords hne hsep, hcount]

end Sys2Proof.Proofs
end

