-- ==== Sys2Proof/Proofs/Decb.lean ====
section
/-! PROOFS. DECB: the block of six indices, its check (44_decoder.md R115 to R117), and that DECB and ENCB undo each
other. -/

namespace Sys2Proof.Proofs

open Sys2Proof Sys2Proof.Machine Sys2Proof.Laws

/-! ### DECB -/

/-- A nine-byte block's value is its six fields and its six low bits (40_bitview.md R76). -/
theorem bigEndian_eq_fields {p : List Byte} (hp : p.length = 9) :
    bigEndian p = 2 ^ 61 * indexField p 0 + 2 ^ 50 * indexField p 1 + 2 ^ 39 * indexField p 2 +
      2 ^ 28 * indexField p 3 + 2 ^ 17 * indexField p 4 + 2 ^ 6 * indexField p 5 + extract p 66 6 := by
  have hlt := bigEndian_lt p
  rw [hp] at hlt
  simp only [indexField]
  repeat rw [extract_eq _ _ _ (by omega)]
  rw [hp]
  omega

theorem indexField_concat_values (x : Indices) {j : Nat} (hj : j < 6) :
    indexField (concat x.values) j = x.values.getD j 0 :=
  (indexField_concat _ _ hj).trans (Nat.mod_eq_of_lt (values_getD_lt x j))

theorem bigEndian_concat (x : Indices) :
    bigEndian (concat x.values) = 2 ^ 61 * x.i0.toNat + 2 ^ 50 * x.i1.toNat + 2 ^ 39 * x.i2.toNat +
      2 ^ 28 * x.i3.toNat + 2 ^ 17 * x.i4.toNat + 2 ^ 6 * x.i5.toNat := by
  simp only [bigEndian_eq_fields (length_concat _), padding_concat, indexField_concat_values, Nat.reduceLT]
  rfl

/-- The carried checksum is the low two bits of the sixth index (44_decoder.md R115(d), R116). -/
theorem verifies_concat_iff (x : Indices) :
    verifies (concat x.values) = true ↔ checksum (concat x.values) = x.i5.toNat % 4 := by
  rw [verifies, beq_iff_eq, checksumField_concat]; rfl

theorem decbBody_of_verifies {s : State} (h : checksum (concat s.idx.values) = s.idx.i5.toNat % 4) :
    decbBody s = decbWrite (concat s.idx.values) s := by
  rw [decbBody, if_pos ((verifies_concat_iff s.idx).mpr h)]

theorem decbBody_of_mismatch {s : State} (h : checksum (concat s.idx.values) ≠ s.idx.i5.toNat % 4) :
    decbBody s = (decbWrite (concat s.idx.values) s).raiseErr ⟨.checksum, 5, 0⟩ := by
  rw [decbBody, if_neg fun hv => h ((verifies_concat_iff s.idx).mp hv)]

theorem bytes_ofBytes_concat (idx : List Nat) : (Block.ofBytes (concat idx)).bytes = concat idx :=
  bytes_ofBytes (length_concat idx)

/-- Settles O41: the block is the concatenation, written before the check; its value is the sum of the shifted
indices. -/
theorem decbConcatenatesAndVerifies : Obligations.DecbConcatenatesAndVerifies := by
  refine ⟨decodeOfEncode .decb rfl, fun s => ⟨Block.ofBytes (concat s.idx.values), ?_, ?_⟩⟩
  · rw [bytes_ofBytes_concat, bigEndian_concat]
  · have hexec : exec .decb s = .next (decbBody s).complete := exec_eq _ s
    rw [hexec, bytes_ofBytes_concat]
    split
    case isTrue h => rw [decbBody_of_verifies h]; rfl
    case isFalse h => rw [decbBody_of_mismatch h]; rfl

/-! ### ENCB and DECB undo each other -/

/-- Six numbers of 11 bits come back from the index registers (10_state.md R29). -/
theorem values_ofValues {l : List Nat} (hl : l.length = 6) (hlt : ∀ i ∈ l, i < 2048) :
    (Indices.ofValues l).values = l := by
  have hmod : l.map (· % 2048) = l :=
    (List.map_congr_left fun i hi => Nat.mod_eq_of_lt (hlt i hi)).trans (List.map_id l)
  match l, hl with
  | [_, _, _, _, _, _], _ => exact hmod

theorem ofValues_values (x : Indices) : Indices.ofValues x.values = x := by
  simp [Indices.ofValues, Indices.values]

/-- BLK's data bytes BLKB[0..7] (10_state.md R25). -/
theorem length_dataBytes (b : Block) : (b.bytes.take 8).length = 8 := rfl

theorem verifies_appendChecksum (b : Block) : verifies (appendChecksum b).bytes = true := by
  rw [appendChecksum_bytes]; exact verifies_packBlock (length_dataBytes b)

theorem concat_encbBody (s : State) : concat (encbBody s).idx.values = (appendChecksum s.blk).bytes := by
  have hidx : (encbBody s).idx.values = sliceBlock (appendChecksum s.blk).bytes :=
    values_ofValues (length_sliceBlock _) fun _ hi => sliceBlock_lt hi
  rw [hidx, appendChecksum_bytes]
  exact concat_slice_packBlock (length_dataBytes s.blk)

/-- Settles O42: the concatenation of ENCB's indices is ENCB's own block, which verifies. -/
theorem decbUndoesEncb : Obligations.DecbUndoesEncb := by
  intro s
  refine ⟨(encbBody s).complete, exec_eq _ s, (exec_next_iff _ _ _).mpr ?_⟩
  have hblk : concat (encbBody s).complete.idx.values = (appendChecksum s.blk).bytes := concat_encbBody s
  have hres : checksum (appendChecksum s.blk).bytes = checksum s.blk.bytes := checksum_bytes_b8 _ _
  rw [bodyOf, decbBody, hblk, if_pos (verifies_appendChecksum s.blk), decbWrite, ofBytes_bytes, hres]
  rfl

theorem sliceBlock_concat (x : Indices) : sliceBlock (concat x.values) = x.values := by
  simp only [sliceBlock, indexField_concat_values, Nat.reduceLT]
  rfl

/-- A concatenated block that verifies is the packed block of its own data bytes (44_decoder.md R115(d), R116). -/
theorem packBlock_take_concat {x : Indices} (h : checksum (concat x.values) = x.i5.toNat % 4) :
    packBlock ((concat x.values).take 8) = concat x.values := by
  have hd : ((concat x.values).take 8).length = 8 := by simp
  apply eq_of_sbit (by simp [packBlock])
  intro c hc
  rw [length_packBlock hd] at hc
  rcases Nat.lt_or_ge c 64 with hlow | hhigh
  · rw [packBlock, sbit_append _ _ _ (by rw [hd]; exact hlow), sbit_take _ _ _ hlow]
  · -- the eight stream bits of the checksum byte: two of the checksum, six of padding
    have hfifth : x.values.getD 5 0 = x.i5.toNat := rfl
    rw [sbit_packBlock_high hd c hhigh hc, checksum_take_eight, h, sbit_concat]
    interval_cases c <;> norm_num [-List.getD_eq_getElem?_getD, hfifth] <;> omega

/-- DECB's block is written before its check (44_decoder.md R117). -/
theorem decbBody_blk (s : State) : (decbBody s).blk = Block.ofBytes (concat s.idx.values) := by
  rw [decbBody]; split <;> rfl

theorem appendChecksum_ofBytes_concat {x : Indices} (h : checksum (concat x.values) = x.i5.toNat % 4) :
    appendChecksum (Block.ofBytes (concat x.values)) = Block.ofBytes (concat x.values) := by
  rw [← ofBytes_bytes (appendChecksum _), appendChecksum_bytes, bytes_ofBytes_concat, packBlock_take_concat h]

/-- Settles O43: the verified block is the one ENCB packs from its data bytes, and its fields are the indices. -/
theorem encbUndoesDecb : Obligations.EncbUndoesDecb := by
  intro s t ht h
  rw [exec_next_iff, bodyOf] at ht
  subst ht
  rw [complete_blk, decbBody_blk, bytes_ofBytes_concat] at h
  refine (exec_next_iff _ _ _).mpr ?_
  rw [decbBody_of_verifies h, bodyOf, encbBody]
  simp only [decbWrite, complete_blk, appendChecksum_ofBytes_concat h, bytes_ofBytes_concat, sliceBlock_concat,
    ofValues_values]
  rfl

end Sys2Proof.Proofs
end

