-- ==== Sys2Proof/Proofs/GroupFold.lean ====
section
/-! PROOFS. The tokens of a text as its stretches between separators (44_decoder.md R118), and what the group fold
answers for good and bad groups (R120, 60_exceptions.md R152). -/

namespace Sys2Proof.Proofs

open Sys2Proof Sys2Proof.Machine Sys2Proof.Laws

/-! ### The tokens of a text -/

/-- A text is one stretch without a separator, or such a stretch, a separator code and a rest. -/
theorem exists_separator_or_none (t : List Byte) :
    (∀ c ∈ t, isSep c = false) ∨
      ∃ w c rest, t = w ++ c :: rest ∧ isSep c = true ∧ ∀ ch ∈ w, isSep ch = false := by
  induction t with
  | nil => exact .inl (List.forall_mem_nil _)
  | cons c t ih =>
    cases hc : isSep c with
    | true => exact .inr ⟨[], c, t, rfl, hc, List.forall_mem_nil _⟩
    | false =>
      obtain h | ⟨w, c', rest, rfl, hc', hw⟩ := ih
      · exact .inl (List.forall_mem_cons.mpr ⟨hc, h⟩)
      · exact .inr ⟨c :: w, c', rest, rfl, hc', List.forall_mem_cons.mpr ⟨hc, hw⟩⟩

/-- The induction of 44_decoder.md R118 over the stretches of a text. -/
theorem stretch_induction {P : List Byte → Prop} (last : ∀ w, (∀ c ∈ w, isSep c = false) → P w)
    (more : ∀ w c rest, (∀ ch ∈ w, isSep ch = false) → isSep c = true → P rest → P (w ++ c :: rest))
    (t : List Byte) : P t := by
  obtain h | ⟨w, c, rest, ht, hc, hw⟩ := exists_separator_or_none t
  · exact last t h
  · have hshorter : rest.length < t.length := by rw [ht, List.length_append, List.length_cons]; omega
    exact ht ▸ more w c rest hw hc (stretch_induction last more rest)
termination_by t.length

theorem countP_isSep_stretch {w : List Byte} (hw : ∀ c ∈ w, isSep c = false) : w.countP isSep = 0 :=
  List.countP_eq_zero.mpr fun c hc => by simp [hw c hc]

theorem countP_isSep_more {w : List Byte} (hw : ∀ c ∈ w, isSep c = false) {c : Byte} (hc : isSep c = true)
    (rest : List Byte) : (w ++ c :: rest).countP isSep = rest.countP isSep + 1 := by
  rw [List.countP_append, countP_isSep_stretch hw, List.countP_cons_of_pos hc, Nat.zero_add]

theorem length_splitTokens (t : List Byte) (a : Nat) : (splitTokens t a).length = t.countP isSep + 1 := by
  induction t using stretch_induction generalizing a with
  | last w hw => rw [splitTokens_word hw, countP_isSep_stretch hw]; rfl
  | more w c rest hw hc ih => rw [splitTokens_word_sep hw hc, List.length_cons, ih, countP_isSep_more hw hc]

theorem splitTokens_head (t : List Byte) (a : Nat) : ∃ tok, (splitTokens t a)[0]? = some tok ∧ tok.addr = a := by
  obtain h | ⟨w, c, rest, rfl, hc, hw⟩ := exists_separator_or_none t
  · exact ⟨⟨t, a⟩, by rw [splitTokens_word h]; rfl, rfl⟩
  · exact ⟨⟨w, a⟩, by rw [splitTokens_word_sep hw hc]; rfl, rfl⟩

/-- The last token ends where the text ends. -/
theorem splitTokens_last (t : List Byte) (a : Nat) :
    ∃ tok, (splitTokens t a)[t.countP isSep]? = some tok ∧ tok.addr + tok.chars.length = a + t.length := by
  induction t using stretch_induction generalizing a with
  | last w hw => exact ⟨⟨w, a⟩, by rw [splitTokens_word hw, countP_isSep_stretch hw]; rfl, rfl⟩
  | more w c rest hw hc ih =>
    obtain ⟨tok, htok, hend⟩ := ih (a + w.length + 1)
    refine ⟨tok, ?_, ?_⟩
    · rw [splitTokens_word_sep hw hc, countP_isSep_more hw hc, List.getElem?_cons_succ, htok]
    · rw [hend, List.length_append, List.length_cons]; omega

/-- Past the first stretch and its separator the text reads as its rest. -/
theorem drop_past_separator (w rest : List Byte) (c : Byte) {a b : Nat} (h : a + w.length + 1 ≤ b) :
    (w ++ c :: rest).drop (b - a) = rest.drop (b - (a + w.length + 1)) := by
  have hb : b - a = (w ++ [c]).length + (b - (a + w.length + 1)) := by
    rw [List.length_append, List.length_singleton]; omega
  rw [List.append_cons, hb, List.drop_length_add_append]

/-- A token lies in the text at its offset and holds no separator. -/
theorem splitTokens_mem {t : List Byte} {a : Nat} {tok : Token} (h : tok ∈ splitTokens t a) :
    a ≤ tok.addr ∧ (t.drop (tok.addr - a)).take tok.chars.length = tok.chars ∧
      ∀ c ∈ tok.chars, isSep c = false := by
  induction t using stretch_induction generalizing a with
  | last w hw =>
    rw [splitTokens_word hw, List.mem_singleton] at h
    subst h
    exact ⟨Nat.le_refl a, by simp, hw⟩
  | more w c rest hw hc ih =>
    rw [splitTokens_word_sep hw hc, List.mem_cons] at h
    obtain rfl | h := h
    · exact ⟨Nat.le_refl a, by simp, hw⟩
    · obtain ⟨haddr, hchars, hsep⟩ := ih h
      exact ⟨by omega, by rw [drop_past_separator w rest c haddr, hchars], hsep⟩

/-- Two tokens in a row have one separator code between them. -/
theorem splitTokens_next {t : List Byte} {a i : Nat} {tok tok' : Token} (h : (splitTokens t a)[i]? = some tok)
    (h' : (splitTokens t a)[i + 1]? = some tok') :
    tok'.addr = tok.addr + tok.chars.length + 1 ∧
      ∃ c, t[tok.addr - a + tok.chars.length]? = some c ∧ isSep c = true := by
  induction t using stretch_induction generalizing a i with
  | last w hw => rw [splitTokens_word hw] at h'; cases h'
  | more w c rest hw hc ih =>
    rw [splitTokens_word_sep hw hc] at h h'
    rw [List.getElem?_cons_succ] at h'
    cases i with
    | zero =>
      obtain ⟨tok1, htok1, haddr⟩ := splitTokens_head rest (a + w.length + 1)
      rw [htok1] at h'
      cases h
      cases h'
      exact ⟨haddr, c, by simp, hc⟩
    | succ i =>
      rw [List.getElem?_cons_succ] at h
      obtain ⟨hnext, sep, hat, hsep⟩ := ih h h'
      have haddr := (splitTokens_mem (List.mem_of_getElem? h)).1
      refine ⟨hnext, sep, ?_, hsep⟩
      rw [← List.getElem?_drop, drop_past_separator w rest c haddr, List.getElem?_drop, hat]

theorem tokenize_of_ne_nil {t : List Byte} (h : t ≠ []) (s : Nat) : tokenize t s = splitTokens t s := by
  rw [tokenize, if_neg (by simpa using h)]

/-- Settles O47: each clause by the induction over the stretches of the text. -/
theorem tokensAreTheStretchesBetweenSeparators : Obligations.TokensAreTheStretchesBetweenSeparators := by
  intro t s
  by_cases ht : t = []
  · subst ht
    refine ⟨fun _ => rfl, fun hne => absurd rfl hne, fun tok h => ?_, fun i tok tok' h => ?_⟩
    · cases h
    · cases h
  · rw [tokenize_of_ne_nil ht]
    exact ⟨fun h => absurd h ht, fun _ => ⟨length_splitTokens t s, splitTokens_head t s, splitTokens_last t s⟩,
      fun tok h => splitTokens_mem h, fun i tok tok' h h' => splitTokens_next h h'⟩

/-! ### The group fold -/

/-- The eight data bytes of group `g`, where its tokens are good (44_decoder.md R120). -/
def groupData (d : List (List Byte)) (toks : List Token) (g : Nat) : List Byte :=
  (concat ((groupTokens toks g).map (tokenIndex d))).take 8

theorem getElem?_groupTokens (toks : List Token) (g : Nat) {k : Nat} (hk : k < 6) :
    (groupTokens toks g)[k]? = toks[6 * g + k]? := by
  rw [groupTokens, List.getElem?_take_of_lt hk, List.getElem?_drop]

theorem length_groupTokens {toks : List Token} {g : Nat} (h : 6 * (g + 1) ≤ toks.length) :
    (groupTokens toks g).length = 6 := by
  rw [groupTokens, List.length_take, List.length_drop]; omega

theorem groupTokens_append_drop (toks : List Token) (g : Nat) :
    groupTokens toks g ++ toks.drop (6 * (g + 1)) = toks.drop (6 * g) := by
  rw [groupTokens, Nat.mul_succ, ← List.drop_drop, List.take_append_drop]

theorem tokenGood_of_mem_take_drop {d : List (List Byte)} {toks : List Token} {a m : Nat}
    (hgood : ∀ j tok, j < a + m → toks[j]? = some tok → tokenGood d tok = true) :
    ∀ tok ∈ (toks.drop a).take m, tokenGood d tok = true := by
  intro tok htok
  obtain ⟨k, hk⟩ := List.mem_iff_getElem?.mp htok
  have hkm : k < m := Nat.lt_of_lt_of_le (List.getElem?_eq_some_iff.mp hk).1 (List.length_take_le m _)
  rw [List.getElem?_take_of_lt hkm, List.getElem?_drop] at hk
  exact hgood (a + k) tok (by omega) hk

/-- A group whose tokens are good: its checksum decides (44_decoder.md R116, R120). -/
theorem decodeGroup_groupTokens {d : List (List Byte)} {toks : List Token} {g : Nat} (n : Nat)
    (hgood : ∀ j tok, j < 6 * g + 6 → toks[j]? = some tok → tokenGood d tok = true) :
    decodeGroup d n (groupTokens toks g) =
      if groupVerifies d toks g then .ok (groupData d toks g)
      else .error ⟨.checksum, n + 5, ((groupTokens toks g).getD 5 ⟨[], 0⟩).addr⟩ :=
  decodeGroup_good n (tokenGood_of_mem_take_drop hgood)

/-- Past the first `g` groups, all good, the fold is what it answers from there, their data bytes in front. -/
theorem decodeGroups_skip {d : List (List Byte)} {toks : List Token} (n : Nat) {g : Nat} (hlen : 6 * g ≤ toks.length)
    (hgood : ∀ j tok, j < 6 * g → toks[j]? = some tok → tokenGood d tok = true)
    (hver : ∀ g' < g, groupVerifies d toks g' = true) :
    decodeGroups d n toks = (decodeGroups d (n + 6 * g) (toks.drop (6 * g))).map
      (((List.range g).flatMap (groupData d toks)) ++ ·) := by
  induction g with
  | zero =>
    cases h : decodeGroups d n toks <;> simp [h, Except.map]
  | succ g ih =>
    have hgroup : decodeGroup d (n + 6 * g) (groupTokens toks g) = .ok (groupData d toks g) := by
      rw [decodeGroup_groupTokens _ hgood, if_pos (hver g (Nat.lt_succ_self g))]
    have ih := ih (by omega) (fun j tok hj => hgood j tok (by omega)) fun g' hg' => hver g' (by omega)
    rw [ih, ← groupTokens_append_drop, decodeGroups_append (length_groupTokens hlen), hgroup, Nat.add_assoc n,
      ← Nat.mul_succ, List.range_succ, List.flatMap_append, List.flatMap_singleton]
    cases decodeGroups d (n + 6 * (g + 1)) (toks.drop (6 * (g + 1))) <;> simp [Except.map]

/-- Settles O48: past all the groups nothing is left to decode. -/
theorem goodGroupsDecode : Obligations.GoodGroupsDecode := by
  intro d toks n h6 hgood hver
  have hall : 6 * (toks.length / 6) = toks.length := Nat.mul_div_cancel' (Nat.dvd_of_mod_eq_zero h6)
  have hdrop : toks.drop (6 * (toks.length / 6)) = [] := by rw [hall, List.drop_length]
  rw [decodeGroups_skip n hall.le (fun j tok _ hj => hgood tok (List.mem_of_getElem? hj)) hver, hdrop]
  exact congrArg Except.ok (List.append_nil _)

/-- An error of group `g`, every earlier group being good, is the fold's answer. -/
theorem decodeGroups_error_of_group {d : List (List Byte)} {toks : List Token} {g : Nat} {e : ErrInfo}
    (hlen : 6 * (g + 1) ≤ toks.length)
    (hgood : ∀ j tok, j < 6 * g → toks[j]? = some tok → tokenGood d tok = true)
    (hver : ∀ g' < g, groupVerifies d toks g' = true)
    (he : decodeGroup d (6 * g) (groupTokens toks g) = .error e) : decodeGroups d 0 toks = .error e := by
  rw [decodeGroups_skip 0 (by omega) hgood hver, Nat.zero_add, ← groupTokens_append_drop,
    decodeGroups_append (length_groupTokens hlen), he]
  rfl

/-- The group of token `k`: the group's tokens before it, the token, and the rest. -/
theorem groupTokens_split {toks : List Token} {k : Nat} {tok : Token} (hk : toks[k]? = some tok) :
    ∃ rest, groupTokens toks (k / 6) = (toks.drop (6 * (k / 6))).take (k % 6) ++ tok :: rest := by
  have hmod : k % 6 < 6 := Nat.mod_lt k (by decide)
  have hat : (groupTokens toks (k / 6))[k % 6]? = some tok := by
    rw [getElem?_groupTokens toks _ hmod, Nat.div_add_mod, hk]
  obtain ⟨hin, rfl⟩ := List.getElem?_eq_some_iff.mp hat
  have hbefore : (groupTokens toks (k / 6)).take (k % 6) = (toks.drop (6 * (k / 6))).take (k % 6) := by
    rw [groupTokens, List.take_take, min_eq_left hmod.le]
  refine ⟨(groupTokens toks (k / 6)).drop (k % 6 + 1), ?_⟩
  rw [List.getElem_cons_drop, ← hbefore, List.take_append_drop]

/-- Settles O49: the tokens of the group before the bad one are good, so the lookup reaches it. -/
theorem firstBadTokenIsReported : Obligations.FirstBadTokenIsReported := by
  intro d toks k tok h6 hk hbad hgood hver
  have hlt : k < toks.length := (List.getElem?_eq_some_iff.mp hk).1
  obtain ⟨rest, hsplit⟩ := groupTokens_split hk
  have hbefore : ∀ t ∈ (toks.drop (6 * (k / 6))).take (k % 6), tokenGood d t = true :=
    tokenGood_of_mem_take_drop fun j t hj => hgood j t (by omega)
  have hindex : 6 * (k / 6) + ((toks.drop (6 * (k / 6))).take (k % 6)).length = k := by
    rw [List.length_take, List.length_drop]; omega
  refine decodeGroups_error_of_group (g := k / 6) (by omega) (fun j t hj => hgood j t (by omega)) hver ?_
  rw [decodeGroup, hsplit, lookupTokens_bad hbad _ _ hbefore, hindex]

/-- Settles O50: the group's tokens are good, so its checksum decides. -/
theorem firstBadGroupIsReported : Obligations.FirstBadGroupIsReported := by
  intro d toks g tok h6 htok hbad hgood hver
  have hlt : 6 * g + 5 < toks.length := (List.getElem?_eq_some_iff.mp htok).1
  refine decodeGroups_error_of_group (g := g) (by omega) (fun j t hj => hgood j t (by omega)) hver ?_
  rw [decodeGroup_groupTokens _ fun j t hj => hgood j t (by omega), if_neg (Bool.eq_false_iff.mp hbad),
    List.getD_eq_getElem?_getD, getElem?_groupTokens toks g (by decide), htok]
  rfl

end Sys2Proof.Proofs
end

