-- ==== Sys2Proof/Proofs/Dec.lean ====
section
/-! PROOFS. DEC: its checks and its commit (44_decoder.md R121), its text up to the case of letters (R119, R122(d)), and
DEC of the text ENC wrote (R122(b), (c)). -/

namespace Sys2Proof.Proofs

open Sys2Proof Sys2Proof.Machine Sys2Proof.Laws

/-! ### DEC's checks and commit -/

/-- The first token past the whole groups, which STRUCTURAL names (44_decoder.md R121). -/
theorem exists_excessToken {toks : List Token} (h : toks.length % 6 ≠ 0) :
    ∃ tok, toks[6 * (toks.length / 6)]? = some tok :=
  ⟨_, List.getElem?_eq_getElem (by omega)⟩

section

variable {s : State} (hsrc : s.srcAddr.toNat + s.srcLen.toNat ≤ s.cfg.tmemSize) {toks : List Token}
  (htoks : tokenize (s.readBytes s.decSource) s.srcAddr.toNat = toks)

include hsrc htoks

theorem decBody_structural (h6 : toks.length % 6 ≠ 0) {tok : Token}
    (htok : toks[6 * (toks.length / 6)]? = some tok) :
    decBody s = (State.noteReads { s with outLen := 0 } s.decSource).raiseErr
      ⟨.structural, 6 * (toks.length / 6), tok.addr⟩ := by
  rw [decBody_read hsrc, htoks, decCommit_structural h6 htok]

variable (h6 : toks.length % 6 = 0)

include h6

theorem decBody_outputRange (hdst : s.cfg.dmemSize < s.dstAddr.toNat + 8 * (toks.length / 6)) :
    decBody s = (State.noteReads { s with outLen := 0 } s.decSource).raiseErr ⟨.range, 0, 0⟩ := by
  rw [decBody_read hsrc, htoks]
  exact decCommit_range h6 hdst

variable (hdst : s.dstAddr.toNat + 8 * (toks.length / 6) ≤ s.cfg.dmemSize)

include hdst

theorem decBody_groupError {e : ErrInfo} (hfold : decodeGroups s.cfg.dict 0 toks = .error e) :
    decBody s = (State.noteReads { s with outLen := 0 } s.decSource).raiseErr e := by
  rw [decBody_read hsrc, htoks]
  exact decCommit_error h6 hdst hfold

theorem decBody_commits {out : List Byte} (hfold : decodeGroups s.cfg.dict 0 toks = .ok out) :
    decBody s = { State.noteReads { s with outLen := 0 } s.decSource with
      dmem := s.dmem.writeBytes s.dstAddr.toNat out
      outLen := BitVec.ofNat 32 out.length } := by
  rw [decBody_read hsrc, htoks]
  exact decCommit_fits h6 hdst hfold

end

/-- Settles O46: DEC's body on each side of each of its checks, completed; the committed buffer byte by byte. -/
theorem decChecksThenCommits : Obligations.DecChecksThenCommits := by
  refine ⟨decodeOfEncode .dec rfl, fun s => ?_⟩
  have hexec : exec .dec s = .next (decBody s).complete := exec_eq _ s
  rw [hexec]
  refine ⟨fun l hl => ?written, fun hsrc => ?sourceRange, fun hsrc => ⟨fun h6 => ?structural,
    fun h6 hdst => ?outputRange, fun h6 hdst => ⟨fun e hfold => ?groupError, fun out hfold => ?commit⟩⟩⟩
  case written => rw [hl]; exact ⟨readBytes_map_some s l, noteReads_map_some s l⟩
  case sourceRange => rw [decBody_range hsrc]; rfl
  case structural =>
    obtain ⟨tok, htok⟩ := exists_excessToken h6
    exact ⟨tok, htok, by rw [decBody_structural hsrc rfl h6 htok]; rfl⟩
  case outputRange => rw [decBody_outputRange hsrc rfl h6 hdst]; rfl
  case groupError => rw [decBody_groupError hsrc rfl h6 hdst hfold]; rfl
  case commit =>
    have hlen := decodeGroups_length _ 0 _ out (Nat.mul_div_cancel' (Nat.dvd_of_mod_eq_zero h6)).symm hfold
    rw [← hlen]
    refine ⟨rfl, s.dmem.writeBytes s.dstAddr.toNat out, ?_, ?_, ?_⟩
    · rw [decBody_commits hsrc rfl h6 hdst hfold]; rfl
    · exact fun k v hv => read?_writeBytes_of_getElem? s.dmem _ hv
    · exact fun a ha => read?_writeBytes_outside s.dmem ha

/-! ### DEC and the case of letters -/

/-- What the decoder sees of tokens: their characters folded, and their offsets (44_decoder.md R119). -/
def foldedTokens (toks : List Token) : List (List Byte × Nat) := toks.map fun tok => (foldWord tok.chars, tok.addr)

@[simp] theorem length_foldedTokens (toks : List Token) : (foldedTokens toks).length = toks.length :=
  List.length_map _

theorem getD_foldedTokens_addr (toks : List Token) (i : Nat) :
    ((foldedTokens toks).getD i ([], 0)).2 = (toks.getD i ⟨[], 0⟩).addr :=
  congrArg Prod.snd (List.getD_map toks ⟨[], 0⟩ fun tok : Token => (foldWord tok.chars, tok.addr))

theorem tokenize_fold {t u : List Byte} (h : foldWord t = foldWord u) (a : Nat) :
    foldedTokens (tokenize t a) = foldedTokens (tokenize u a) := by
  have hnil : t = [] ↔ u = [] := by rw [← List.length_eq_zero_iff, length_of_foldWord h, List.length_eq_zero_iff]
  by_cases ht : t = []
  · rw [ht, hnil.mp ht]
  · rw [tokenize_of_ne_nil ht, tokenize_of_ne_nil (mt hnil.mpr ht)]
    exact splitTokens_fold t u a h

/-- `s` with TMEM replaced. -/
def withTmem (m : Memory) (s : State) : State := { s with tmem := m }

/-- DEC's commit sees its tokens only folded. -/
theorem decCommit_congr {toks toks' : List Token} (h : foldedTokens toks = foldedTokens toks') (s : State) :
    decCommit toks s = decCommit toks' s := by
  have hlen : toks.length = toks'.length := by rw [← length_foldedTokens, h, length_foldedTokens]
  have hfold : decodeGroups s.cfg.dict 0 toks = decodeGroups s.cfg.dict 0 toks' :=
    decodeGroups_fold toks.length 0 toks toks' (by omega) h
  have haddr : ∀ i, (toks.getD i ⟨[], 0⟩).addr = (toks'.getD i ⟨[], 0⟩).addr := fun i => by
    rw [← getD_foldedTokens_addr, h, getD_foldedTokens_addr]
  rw [decCommit, decCommit, hlen, hfold, haddr]

theorem decCommit_withTmem (toks : List Token) (m : Memory) (s : State) :
    decCommit toks (withTmem m s) = withTmem m (decCommit toks s) := by
  by_cases h6 : toks.length % 6 = 0
  · rcases Nat.lt_or_ge s.cfg.dmemSize (s.dstAddr.toNat + 8 * (toks.length / 6)) with hdst | hdst
    · rw [decCommit_range h6 hdst]
      exact decCommit_range (s := withTmem m s) h6 hdst
    · rcases hfold : decodeGroups s.cfg.dict 0 toks with e | out
      · rw [decCommit_error h6 hdst hfold]
        exact decCommit_error (s := withTmem m s) h6 hdst hfold
      · rw [decCommit_fits h6 hdst hfold]
        exact decCommit_fits (s := withTmem m s) h6 hdst hfold
  · obtain ⟨tok, htok⟩ := exists_excessToken h6
    rw [decCommit_structural (s := s) h6 htok]
    exact decCommit_structural (s := withTmem m s) h6 htok

/-- DEC from two written sources that are equal after folding. -/
theorem decBody_fold {s : State} {m : Memory} {b b' : List Byte} (hb : s.decSource = b.map some)
    (hb' : (withTmem m s).decSource = b'.map some) (h : foldWord b = foldWord b') :
    decBody (withTmem m s) = withTmem m (decBody s) := by
  rcases Nat.lt_or_ge s.cfg.tmemSize (s.srcAddr.toNat + s.srcLen.toNat) with hsrc | hsrc
  · rw [decBody_range hsrc]
    exact decBody_range (s := withTmem m s) hsrc
  · rw [decBody_read hsrc, decBody_read (s := withTmem m s) hsrc, hb, hb']
    simp only [readBytes_map_some, noteReads_map_some]
    rw [decCommit_congr (tokenize_fold h s.srcAddr.toNat)]
    exact decCommit_withTmem _ m { s with outLen := 0 }

/-- Settles O51: DEC's body commutes with the change of TMEM, and completion does not see TMEM. -/
theorem decIgnoresCase : Obligations.DecIgnoresCase := by
  intro s m b b' hb hb' hfold
  refine ⟨(decBody s).complete, exec_eq _ s, (exec_next_iff _ _ _).mpr ?_⟩
  exact congrArg State.complete (decBody_fold hb hb' hfold).symm

/-! ### DEC of the text ENC wrote -/

/-- Groups that hold the words of eight-byte blocks decode to the blocks, in order (44_decoder.md R122(b)). -/
theorem decodeGroups_blockWords {d : List (List Byte)} (hd : dictOK d = true) {blocks : List (List Byte)}
    (hblocks : ∀ b ∈ blocks, b.length = 8) {toks : List Token} {n : Nat}
    (htoks : toks.map Token.chars = blocks.flatMap (blockWords d)) :
    decodeGroups d n toks = .ok blocks.flatten := by
  induction blocks generalizing toks n with
  | nil => rw [List.map_eq_nil_iff.mp htoks]; rfl
  | cons b blocks ih =>
    obtain ⟨hb, hrest⟩ := List.forall_mem_cons.mp hblocks
    obtain ⟨group, rest, rfl, hgroup, hrestToks⟩ := List.map_eq_append_iff.mp htoks
    have hlen : group.length = 6 := by rw [← List.length_map Token.chars, hgroup, length_blockWords]
    rw [decodeGroups_append hlen, decodeGroup_blockWords hd hb hgroup, ih hrest hrestToks]
    rfl

/-- The text ENC writes tokenises into the words of its blocks (44_decoder.md R118, 43_encoder.md R105). -/
theorem tokenize_encodeText {d : List (List Byte)} (hd : dictOK d = true) (b : List Byte) (a : Nat) :
    (tokenize (encodeText d b) a).map Token.chars = encodeWords d b := by
  refine tokenize_joinWords (fun w hw => noSep_of_mem hd (encodeWords_mem hd hw)) (fun w hw => ?_) a
  obtain ⟨hone, -, -⟩ := dictOK_entry hd (encodeWords_mem hd hw)
  exact List.length_pos_iff.mp hone

theorem decodeGroups_encodeText {d : List (List Byte)} (hd : dictOK d = true) (b : List Byte) (a n : Nat) :
    decodeGroups d n (tokenize (encodeText d b) a) = .ok (pad b) := by
  have hblocks : ∀ x ∈ (List.range (numBlocks b)).map (blockAt b), x.length = 8 := fun x hx => by
    obtain ⟨k, hk, rfl⟩ := List.mem_map.mp hx
    exact length_blockAt (List.mem_range.mp hk)
  have hwords : (tokenize (encodeText d b) a).map Token.chars =
      ((List.range (numBlocks b)).map (blockAt b)).flatMap (blockWords d) := by
    rw [tokenize_encodeText hd, encodeWords, List.flatMap_map]
  rw [decodeGroups_blockWords hd hblocks hwords, ← flatMap_blockAt b]
  rfl

theorem encBody_of_written {s : State} {b : List Byte} (hb : s.encSource = b.map some)
    (hsrc : s.srcAddr.toNat + s.srcLen.toNat ≤ s.cfg.dmemSize)
    (hdst : s.dstAddr.toNat + (encodeText s.cfg.dict b).length ≤ s.cfg.tmemSize) :
    encBody s = { s with
      tmem := s.tmem.writeBytes s.dstAddr.toNat (encodeText s.cfg.dict b)
      outLen := BitVec.ofNat 32 (encodeText s.cfg.dict b).length } := by
  have hread : s.readBytes s.encSource = b := by rw [hb, readBytes_map_some]
  rw [encBody_commits hsrc (hread.symm ▸ hdst), hread, hb, noteReads_map_some]

/-- DEC from a source that holds an encoded text: the padded buffer is its output (44_decoder.md R122(b), (c)). -/
theorem decBody_of_encodeText {s : State} {b : List Byte} (hb : s.decSource = (encodeText s.cfg.dict b).map some)
    (hd : dictOK s.cfg.dict = true)
    (hsrc : s.srcAddr.toNat + s.srcLen.toNat ≤ s.cfg.tmemSize)
    (hdst : s.dstAddr.toNat + (pad b).length ≤ s.cfg.dmemSize) :
    decBody s = { s with
      dmem := s.dmem.writeBytes s.dstAddr.toNat (pad b)
      outLen := BitVec.ofNat 32 (pad b).length } := by
  have hread : s.readBytes s.decSource = encodeText s.cfg.dict b := by rw [hb, readBytes_map_some]
  have hcount : (tokenize (encodeText s.cfg.dict b) s.srcAddr.toNat).length = 6 * ((b.length + 7) / 8) := by
    rw [← List.length_map Token.chars, tokenize_encodeText hd, length_encodeWords]
  rw [length_pad] at hdst
  rw [decBody_commits hsrc (congrArg (tokenize · _) hread) (by omega) (by omega) (decodeGroups_encodeText hd b _ 0),
    hb, noteReads_map_some]

theorem toNat_ofNat_of_le_size {n size : Nat} (hn : n ≤ size) (hsize : size ≤ 2 ^ 31) :
    (BitVec.ofNat 32 n).toNat = n :=
  (BitVec.toNat_ofNat _ _).trans (Nat.mod_eq_of_lt (by omega))

/-- The host's set-up between ENC and DEC: the source is where ENC's text is (44_decoder.md R122(b)). -/
def sourceFromOutput (dst : Word) (t : State) : State :=
  { t with srcAddr := t.dstAddr, srcLen := t.outLen, dstAddr := dst }

/-- After a commit of `text` the host's set-up makes it DEC's source. -/
theorem decSource_sourceFromOutput (s : State) {text : List Byte} (dst : Word)
    (h : (BitVec.ofNat 32 text.length).toNat = text.length) :
    (sourceFromOutput dst { s with
      tmem := s.tmem.writeBytes s.dstAddr.toNat text
      outLen := BitVec.ofNat 32 text.length }).decSource = text.map some := by
  have hrange := range_writeBytes s.tmem s.dstAddr.toNat text
  rw [← h] at hrange
  exact hrange

/-- Settles O52: DEC's source is the text ENC committed, whose groups decode to the padded buffer. -/
theorem encodeDecodeRoundTrip : Obligations.EncodeDecodeRoundTrip := by
  intro s b dst hc hb hsrc htext hdst
  have hpad : (pad b).length = 8 * ((b.length + 7) / 8) := length_pad b
  rw [← hpad] at hdst ⊢
  have htextLen := toNat_ofNat_of_le_size (show (encodeText s.cfg.dict b).length ≤ _ by omega) (configOK_tmem hc).2
  have hpadLen := toNat_ofNat_of_le_size (show (pad b).length ≤ _ by omega) (configOK_dmem hc).2
  have hfits : s.dstAddr.toNat + (BitVec.ofNat 32 (encodeText s.cfg.dict b).length).toNat ≤ s.cfg.tmemSize := by
    rw [htextLen]; exact htext
  have henc := encBody_of_written hb hsrc htext
  have hdec := decBody_of_encodeText (decSource_sourceFromOutput s.complete dst htextLen) (configOK_dict hc) hfits hdst
  exact ⟨_, _, (exec_next_iff .enc _ _).mpr (congrArg State.complete henc.symm),
    (exec_next_iff .dec _ _).mpr (congrArg State.complete hdec.symm), rfl, hpadLen, rfl, range_writeBytes _ _ _⟩

end Sys2Proof.Proofs
end

