-- ==== Sys2Proof/Proofs/Control.lean ====
section
/-! PROOFS. NOP and CLR: which register an offset names, what CLR's cleared and completed registers read as
(45_control.md R141), and NOP from its issue to its completion (R140). -/

namespace Sys2Proof.Proofs

open Sys2Proof Sys2Proof.Machine Sys2Proof.Laws

/-! ### Cleared registers -/

theorem ofOffset_eq_some_iff {off : Nat} {r : Reg} : Reg.ofOffset off = some r ↔ r.offset = off := by
  constructor
  · intro h
    simpa using List.find?_some h
  · rintro rfl
    exact ofOffset_offset r

theorem offset_eq_status_iff (r : Reg) : r.offset = 0x04 ↔ r = .status := by
  cases r <;> decide

/-- Completion is seen in STATUS alone (30_encoding.md R55). -/
theorem regValue_complete {r : Reg} (h : r ≠ .status) (s : State) : s.complete.regValue r = s.regValue r := by
  cases r with
  | status => exact absurd rfl h
  | _ => rfl

/-- Every register's reset value is 0 (10_state.md R22). -/
theorem regValue_clearRegisters {r : Reg} (h : r ≠ .status) (s : State) : s.clearRegisters.regValue r = 0 := by
  cases r with
  | status => exact absurd rfl h
  | _ => rfl

theorem regValue_complete_clearRegisters (s : State) (r : Reg) :
    s.clearRegisters.complete.regValue r = if r = .status then 2 else 0 := by
  split
  · next h => subst h; rfl
  · next h => rw [regValue_complete h, regValue_clearRegisters h]

theorem readOffset_complete_clearRegisters (s : State) (off : Nat) :
    s.clearRegisters.complete.readOffset off = if off = 0x04 then 2 else 0 := by
  rcases hr : Reg.ofOffset off with _ | r
  · have hoff : off ≠ 0x04 := by rintro rfl; cases hr
    rw [State.readOffset, hr, if_neg hoff]
  · obtain rfl := ofOffset_eq_some_iff.mp hr
    simp only [readOffset_offset, regValue_complete_clearRegisters, offset_eq_status_iff]

/-- Settles O31: CLR's body is the clearing of all registers; each offset reads its register's value, or is reserved. -/
theorem clrZeroesEveryRegister : Obligations.ClrZeroesEveryRegister :=
  ⟨decodeOfEncode .clr rfl, fun s =>
    ⟨_, exec_eq .clr s, rfl, readOffset_complete_clearRegisters s, rfl, rfl, rfl, rfl, rfl, rfl, rfl⟩⟩

/-! ### NOP -/

theorem eq_nop_of_opcode_eq_zero {i : Instr} (h : opcode i = 0) : i = .nop := by
  cases i with
  | nop => rfl
  | _ => cases h

/-- OP 0 is NOP's and its operand bits are reserved (30_encoding.md R57, R59). -/
theorem eq_zero_of_decode_of_lt {v : Nat} {i : Instr} (hv : v < 2 ^ 28) (h : decode (BitVec.ofNat 32 v) = .ok i) :
    v = 0 := by
  obtain ⟨-, hop, hbits⟩ := fields_of_decode h
  have hval : (BitVec.ofNat 32 v).toNat = v := Nat.mod_eq_of_lt (by omega)
  rw [hval] at hop hbits
  rw [Nat.div_eq_of_lt hv] at hop
  rw [Nat.mod_eq_of_lt hv, eq_nop_of_opcode_eq_zero hop.symm] at hbits
  exact hbits

/-- Settles O30: OP 0 leaves only the word 0; a NOP just issued completes on the next step, with the error record that
its issue cleared. -/
theorem nopEndsWithStatusTwo : Obligations.NopEndsWithStatusTwo := by
  refine ⟨fun v hpos hv => ?_, exec_eq .nop, fun s hr => ?_⟩
  · cases h : decode (BitVec.ofNat 32 v) with
    | error => rfl
    | ok i => exact absurd (eq_zero_of_decode_of_lt hv h) hpos.ne'
  · have hstep : step (s.withFetchWord 32 0x00000000) = exec .nop (s.withFetchWord 32 0x00000000) :=
      stepRunsDecodedCommand _ _ .nop hr rfl (.inl rfl) (decodeOfEncode .nop rfl)
    exact ⟨_, hstep.trans (exec_eq .nop _), rfl, rfl⟩

end Sys2Proof.Proofs
end

