-- ==== Sys2Proof/Proofs/Exceptions.lean ====
section
/-! PROOFS. Commands that raise: which codes each command reports (60_exceptions.md R150) and what a failed ENC or DEC
leaves behind (R151). Both go by what each body can do: a body that raises nothing keeps STATUS.ERR, CLR clears it. -/

namespace Sys2Proof.Proofs

open Sys2Proof Sys2Proof.Machine Sys2Proof.Laws

/-- Settles O53: of the effects of ENC and DEC a commit keeps STATUS.ERR, and a raise, before or after the source is
read, is the stated state. -/
theorem failedBufferCommandWritesNoBuffer : Obligations.FailedBufferCommandWritesNoBuffer := by
  intro i s t hi hs h ht
  obtain ⟨u, hu, rfl⟩ := exec_effect h
  cases hu with
  | encRange | encRaise | decRange | decRaise => rfl
  | encCommit | decCommit => exact absurd (hs.symm.trans ht) Bool.false_ne_true
  | _ => simp at hi

/-- Settles O54: each effect that raises names its code; the other effects leave STATUS.ERR at 0. -/
theorem commandsRaiseTheirOwnCodes : Obligations.CommandsRaiseTheirOwnCodes := by
  intro i s t hs h ht
  obtain ⟨u, hu, rfl⟩ := exec_effect h
  cases hu with
  | extRaise start len => exact .inl ⟨start, len, rfl, rfl⟩
  | w2iRaise code hcode => exact .inr (.inl ⟨rfl, hcode⟩)
  | decbRaise => exact .inr (.inr (.inl ⟨rfl, rfl⟩))
  | encRange | encRaise => exact .inr (.inr (.inr (.inl ⟨rfl, rfl⟩)))
  | decRange => exact .inr (.inr (.inr (.inr ⟨rfl, .inl rfl⟩)))
  | decRaise e hcode => exact .inr (.inr (.inr (.inr ⟨rfl, hcode⟩)))
  | clr => exact absurd ht Bool.false_ne_true
  | nop | ext | par | i2w | w2i | encb | decb | encCommit | decCommit =>
    exact absurd (hs.symm.trans ht) Bool.false_ne_true

end Sys2Proof.Proofs
end

