-- ==== Sys2Proof/Proofs/Reset.lean ====
section
/-! PROOFS. The reset input (70_reset_and_hazards.md R170, R173): the invariant at State.reset, what a reset clears,
what an abandoned ENC or DEC leaves of its output buffer, and that nothing else moves. -/

namespace Sys2Proof.Proofs

open Sys2Proof Sys2Proof.Machine Sys2Proof.Laws

/-- Settles O10: State.reset is the power-on of the test fixture. -/
theorem resetHasInvariant : Obligations.ResetHasInvariant := by
  unfold Obligations.ResetHasInvariant
  rw [reset_eq_powerOn]
  exact powerOnHasInvariant Config.testFixture

/-! ### The buffers of an abandoned command -/

/-- Abandoning a command touches the two buffers only. -/
theorem abandonPending_frame (s : State) :
    s.abandonPending = { s with dmem := s.abandonPending.dmem, tmem := s.abandonPending.tmem } := by
  unfold State.abandonPending
  split <;> rfl

theorem abandonPending_of_enc {s : State} (h : s.pending.map decode = some (.ok .enc)) :
    s.abandonPending = { s with tmem := s.tmem.eraseFrom s.dstAddr.toNat } := by
  rw [State.abandonPending, h]

theorem abandonPending_of_dec {s : State} (h : s.pending.map decode = some (.ok .dec)) :
    s.abandonPending = { s with dmem := s.dmem.eraseFrom s.dstAddr.toNat } := by
  rw [State.abandonPending, h]

theorem abandonPending_tmem {s : State} (h : s.pending.map decode ≠ some (.ok .enc)) :
    s.abandonPending.tmem = s.tmem := by
  unfold State.abandonPending
  split
  · next henc => exact absurd henc h
  · rfl
  · rfl

theorem abandonPending_dmem {s : State} (h : s.pending.map decode ≠ some (.ok .dec)) :
    s.abandonPending.dmem = s.dmem := by
  unfold State.abandonPending
  split
  · rfl
  · next hdec => exact absurd hdec h
  · rfl

/-! ### The state after a reset -/

theorem regValue_resetInput (s : State) (r : Reg) : s.resetInput.regValue r = 0 := by
  cases r <;> rfl

/-- Every offset of the window reads 0 after a reset, register or reserved. -/
theorem readOffset_resetInput (s : State) (off : Nat) : s.resetInput.readOffset off = 0 := by
  unfold State.readOffset
  split
  · exact regValue_resetInput s _
  · rfl

@[simp] theorem resetInput_inputs (s : State) : s.resetInput.inputs = s.inputs :=
  (congrArg State.inputs (abandonPending_frame s) :)

@[simp] theorem resetInput_hostProtocol (s : State) : s.resetInput.hostProtocol = s.hostProtocol :=
  (congrArg State.hostProtocol (abandonPending_frame s) :)

@[simp] theorem resetInput_uninitRead (s : State) : s.resetInput.uninitRead = s.uninitRead :=
  (congrArg State.uninitRead (abandonPending_frame s) :)

@[simp] theorem resetInput_refused (s : State) : s.resetInput.refused = s.refused :=
  (congrArg State.refused (abandonPending_frame s) :)

theorem resetInput_tmem {s : State} (h : s.pending.map decode ≠ some (.ok .enc)) : s.resetInput.tmem = s.tmem :=
  abandonPending_tmem h

theorem resetInput_dmem {s : State} (h : s.pending.map decode ≠ some (.ok .dec)) : s.resetInput.dmem = s.dmem :=
  abandonPending_dmem h

/-- An abandoned ENC leaves no TMEM byte at DST_ADDR and above. -/
theorem resetInput_tmem_of_enc {s : State} (h : s.pending.map decode = some (.ok .enc)) :
    s.resetInput.tmem = s.tmem.eraseFrom s.dstAddr.toNat :=
  congrArg State.tmem (abandonPending_of_enc h)

/-- An abandoned DEC leaves no DMEM byte at DST_ADDR and above. -/
theorem resetInput_dmem_of_dec {s : State} (h : s.pending.map decode = some (.ok .dec)) :
    s.resetInput.dmem = s.dmem.eraseFrom s.dstAddr.toNat :=
  congrArg State.dmem (abandonPending_of_dec h)

/-- Settles O6: the host's turn is the reset input; registers, PENDING and the poll window are cleared outright, and the
rest is the frame of abandoning a command. -/
theorem resetClearsRegisters : Obligations.ResetClearsRegisters := by
  intro s rest
  exact ⟨_, rfl, resetInput_inputs _, readOffset_resetInput _, rfl, rfl, resetInput_cfg _,
    fun henc => resetInput_tmem (s := { s with inputs := rest }) henc,
    fun hdec => resetInput_dmem (s := { s with inputs := rest }) hdec,
    resetInput_hostProtocol _, resetInput_uninitRead _, resetInput_refused _⟩

/-- Settles O7: what the pending word decodes to says which buffer is cut at DST_ADDR, and a cut buffer reads as before
below the cut and as unwritten from there on. -/
theorem resetForgetsAnAbandonedOutput : Obligations.ResetForgetsAnAbandonedOutput := by
  intro s w rest hw
  -- the reset is asserted on `s` with the host's actions moved on
  have hp : (State.pending { s with inputs := rest }).map decode = some (decode w) := congrArg (Option.map decode) hw
  refine ⟨_, rfl, readOffset_resetInput _, rfl, fun henc => ⟨?_, fun a => ?_⟩, fun hdec => ⟨?_, fun a => ?_⟩,
    fun henc hdec => ⟨?_, ?_⟩⟩
  · exact resetInput_dmem (by simp [hp, henc])
  · rw [resetInput_tmem_of_enc (hp.trans (congrArg some henc)), read?_eraseFrom]
  · exact resetInput_tmem (by simp [hp, hdec])
  · rw [resetInput_dmem_of_dec (hp.trans (congrArg some hdec)), read?_eraseFrom]
  · exact resetInput_tmem (by simpa [hp] using henc)
  · exact resetInput_dmem (by simpa [hp] using hdec)

end Sys2Proof.Proofs
end

