-- ==== Sys2Proof/Proofs/Marks.lean ====
section
/-! PROOFS. The model's marks (70_reset_and_hazards.md R174): no step clears one, and an unwritten byte that ENC, DEC or
the host reads sets UNINIT_READ (R171). -/

namespace Sys2Proof.Proofs

open Sys2Proof Sys2Proof.Machine Sys2Proof.Laws

/-! ### No mark is cleared -/

/-- From `s` to `t` HOST_PROTOCOL and UNINIT_READ stay set where they were, and REFUSED is as before. -/
def MarksKept (s t : State) : Prop :=
  (s.hostProtocol = true → t.hostProtocol = true) ∧ (s.uninitRead = true → t.uninitRead = true) ∧
    t.refused = s.refused

theorem marksKept_noteReads (s : State) (l : List (Option Byte)) : MarksKept s (s.noteReads l) :=
  ⟨id, fun h => by simp [h], rfl⟩

/-- ENC and DEC note what they read of their source; nothing else in a command's body touches a mark. -/
theorem bodyEffect_marksKept {i : Instr} {s u : State} (h : BodyEffect s i u) : MarksKept s u := by
  cases h with
  | encRaise | encCommit => exact (marksKept_noteReads s s.encSource :)
  | decRaise | decCommit => exact (marksKept_noteReads s s.decSource :)
  | _ => exact ⟨id, id, rfl⟩

theorem coreStep_marksKept {w : Word} {s t : State} (h : coreStep w s = .next t) : MarksKept s t := by
  obtain ⟨i, _, rfl⟩ | rfl := coreStep_cases h
  · exact (bodyEffect_marksKept (bodyOf_effect i s) :)
  · exact ⟨id, id, rfl⟩

theorem writeOffset_marksKept (s : State) (off : Nat) (v : Word) : MarksKept s (s.writeOffset off v) := by
  unfold State.writeOffset
  split
  · next r _ => cases r <;> exact ⟨id, id, rfl⟩
  · exact ⟨id, id, rfl⟩

theorem busEffect_marksKept {s t : State} (h : BusEffect s t) : MarksKept s t := by
  cases h with
  | violation => exact ⟨fun _ => rfl, id, rfl⟩
  | writeRegister off v _ => exact writeOffset_marksKept s off v
  | readBuffer cell => exact (marksKept_noteReads s [cell] :)
  | _ => exact ⟨id, id, rfl⟩

theorem resetInput_marksKept (s : State) : MarksKept s s.resetInput :=
  ⟨(resetInput_hostProtocol s).trans, (resetInput_uninitRead s).trans, resetInput_refused s⟩

theorem hostTurn_marksKept {op : HostOp} {rest : List HostOp} {s t : State} (h : hostTurn op rest s = .next t) :
    MarksKept s t := by
  obtain rfl | ⟨l, hb⟩ := hostTurn_cases h
  · exact (resetInput_marksKept { s with inputs := rest } :)
  · exact (busEffect_marksKept hb :)

/-- Settles O15: a step is nothing, a CORE step or a host turn, and each keeps the marks. -/
theorem marksAreNeverCleared : Obligations.MarksAreNeverCleared := by
  intro s t h
  obtain ⟨_, rfl | ⟨w, _, hc⟩ | ⟨op, rest, d, hh⟩⟩ := step_cases h
  · exact ⟨id, id, rfl⟩
  · exact coreStep_marksKept hc
  · exact (hostTurn_marksKept hh :)

/-! ### Unwritten bytes -/

/-- What noting a read records: a byte of the range was unwritten. -/
theorem noteReads_uninitRead_allWritten (s : State) (l : List (Option Byte)) :
    (s.noteReads l).uninitRead = (s.uninitRead || !allWritten l) := by
  have h : decide (0 < unwrittenIn l) = !allWritten l := by
    rw [Bool.eq_iff_iff, decide_eq_true_eq, unwrittenIn_pos_iff, Bool.not_eq_true']
  rw [noteReads_uninitRead, h]

@[simp] theorem encCommit_uninitRead (text : List Byte) (s : State) :
    (encCommit text s).uninitRead = s.uninitRead := by
  unfold encCommit
  split <;> rfl

@[simp] theorem decCommit_uninitRead (toks : List Token) (s : State) :
    (decCommit toks s).uninitRead = s.uninitRead := by
  unfold decCommit
  split
  · rfl
  · split
    · rfl
    · split <;> rfl

/-- ENC reads its source exactly when the range is inside DMEM (43_encoder.md R107). -/
theorem encBody_uninitRead (s : State) : (encBody s).uninitRead = (s.uninitRead ||
    (decide (s.srcAddr.toNat + s.srcLen.toNat ≤ s.cfg.dmemSize) && !allWritten s.encSource)) := by
  rcases Nat.lt_or_ge s.cfg.dmemSize (s.srcAddr.toNat + s.srcLen.toNat) with h | h
  · simp [encBody_range h, Nat.not_le.mpr h]
  · rw [encBody_read h, encCommit_uninitRead, noteReads_uninitRead_allWritten, decide_eq_true h, Bool.true_and]

/-- DEC reads its source exactly when the range is inside TMEM (44_decoder.md R121). -/
theorem decBody_uninitRead (s : State) : (decBody s).uninitRead = (s.uninitRead ||
    (decide (s.srcAddr.toNat + s.srcLen.toNat ≤ s.cfg.tmemSize) && !allWritten s.decSource)) := by
  rcases Nat.lt_or_ge s.cfg.tmemSize (s.srcAddr.toNat + s.srcLen.toNat) with h | h
  · simp [decBody_range h, Nat.not_le.mpr h]
  · rw [decBody_read h, decCommit_uninitRead, noteReads_uninitRead_allWritten, decide_eq_true h, Bool.true_and]

/-- The host's read of an unwritten byte: the mark, one free value used, and that value in the host's record. -/
theorem hostReadByte_none (s : State) : s.hostReadByte none = { s with
    uninitRead := true, freeCount := s.freeCount + 1,
    readLog := s.readLog ++ [(Config.unwrittenByte s.freeCount).setWidth 32] } := by
  simp [State.hostReadByte, State.noteReads, State.readBytes, State.logRead, unwrittenIn, fillUnwritten]

/-- Settles O56: ENC's and DEC's bodies on each side of their source check, and the lawful byte read of a buffer whose
cell is unwritten. -/
theorem unwrittenSourceSetsTheMark : Obligations.UnwrittenSourceSetsTheMark := by
  intro s
  refine ⟨⟨_, exec_eq .enc s, encBody_uninitRead s⟩, ⟨_, exec_eq .dec s, decBody_uninitRead s⟩, fun a hl hw =>
    ⟨fun ha hnone => ⟨Config.unwrittenByte s.freeCount, ?_⟩, fun ha hnone => ⟨Config.unwrittenByte s.freeCount, ?_⟩⟩⟩
  · rw [busReadByte_dmem hl hw ha, hnone, hostReadByte_none]
  · rw [busReadByte_tmem hl hw ha, hnone, hostReadByte_none]

end Sys2Proof.Proofs
end
